-- ==== Sys2Proof/Word.lean ====
section
/-! DEFINITION. The value types of 00_scope.md R13: Byte, Word, the 16-Byte State (here `Block`), Bits32. -/

namespace Sys2Proof

/-- An unsigned 8-bit value (R13). -/
abbrev Byte := BitVec 8

/-- An unsigned 32-bit value, used only on the host bus (R13). -/
abbrev Bits32 := BitVec 32

/-- "exactly 4 bytes; the atomic unit manipulated by key expansion", written `[a0,a1,a2,a3]` with `a0` first (R13, R120). -/
structure Word where
  a0 : Byte
  a1 : Byte
  a2 : Byte
  a3 : Byte
deriving DecidableEq, Repr, Inhabited

/-- The Word of four zero Bytes. -/
def Word.zero : Word := ⟨0, 0, 0, 0⟩

/-- What the spec calls State, a sequence of 16 Bytes `S[0..15]` (R13): the working buffer of a round, an input block, a result. -/
abbrev Block := Vector Byte 16

end Sys2Proof
end

