-- ==== Sys2Proof/Syntax.lean ====
section
/-! DEFINITION. The commands: one constructor per row of spec/opcode_table.json. -/

namespace Sys2Proof

/-- A command (30_encoding.md R72). Its one operand ARG is an unsigned integer, "never sign-extended, scaled or shifted" (R73); that it fits
ARG's 16 bits is `Instr.wf` (log 11). -/
inductive Instr where
  /-- `construct(variant)`: ARG is the key size in bits (R160). -/
  | construct (arg : Nat)
  /-- `expandKey(engine, rawKey)`: ARG is the raw key's length in bytes (R129). -/
  | expandKey (arg : Nat)
  /-- `encryptBlock(engine, block, schedule)`: ARG is the block's length in bytes (R163). -/
  | encryptBlock (arg : Nat)
  /-- `decryptBlock(engine, block, schedule)`: ARG is the block's length in bytes (R167). -/
  | decryptBlock (arg : Nat)
deriving DecidableEq, Repr

/-- The operand ARG of a command. -/
def Instr.arg : Instr → Nat
  | .construct arg => arg
  | .expandKey arg => arg
  | .encryptBlock arg => arg
  | .decryptBlock arg => arg

end Sys2Proof
end

