-- ==== Sys2Proof/WellFormed.lean ====
section
/-! DEFINITION. Which commands can be encoded. -/

namespace Sys2Proof

/-- ARG fits its 16 bits: "An assembler for this notation must refuse `construct`, `expand`, `encrypt` or `decrypt` with N > 65535"
(30_encoding.md R81). -/
def Instr.wf (i : Instr) : Bool := decide (i.arg ≤ 65535)

end Sys2Proof
end

