-- ==== Sys2Proof/Decode.lean ====
section
/-! DEFINITION. The format CMD32 (30_encoding.md R71), decoding (R72, R74, R76), and the encoder. -/

namespace Sys2Proof

/-- OP, bits 3:0 (R71). -/
def opField (v : Bits32) : BitVec 4 := v.extractLsb' 0 4

/-- RSV, bits 15:4 (R71). -/
def rsvField (v : Bits32) : BitVec 12 := v.extractLsb' 4 12

/-- ARG, bits 31:16 (R71). -/
def argField (v : Bits32) : BitVec 16 := v.extractLsb' 16 16

/-- Why a word is no command (R75). Both reasons raise IllegalCommand. -/
inductive DecodeReject where
  /-- RSV is not 0 (R74); checked first (R76). -/
  | reservedField (rsv : BitVec 12)
  /-- OP is 0x0 or 0x5 to 0xF (R72). -/
  | reservedOp (op : BitVec 4)
deriving DecidableEq, Repr

/-- What a 32-bit value written to CMD selects: "exactly one of the four commands or IllegalCommand" (R76). -/
inductive Decoded where
  | command (i : Instr)
  | illegal (r : DecodeReject)
deriving DecidableEq, Repr

/-- Decode, in the order of R76: RSV, then OP. -/
def decode (v : Bits32) : Decoded :=
  if rsvField v ≠ 0 then .illegal (.reservedField (rsvField v))
  else
    match (opField v).toNat with
    | 1 => .command (.construct (argField v).toNat)
    | 2 => .command (.expandKey (argField v).toNat)
    | 3 => .command (.encryptBlock (argField v).toNat)
    | 4 => .command (.decryptBlock (argField v).toNat)
    | _ => .illegal (.reservedOp (opField v))

/-- The value of OP for a command (R72). -/
def Instr.op : Instr → BitVec 4
  | .construct _ => 0x1
  | .expandKey _ => 0x2
  | .encryptBlock _ => 0x3
  | .decryptBlock _ => 0x4

/-- The command word: ARG, twelve zero bits, OP, from bit 31 down (R71; "the word is `(ARG << 16) | OP`", R129, R160, R163, R167). -/
def encode (i : Instr) : Bits32 := BitVec.ofNat 16 i.arg ++ (0 : BitVec 12) ++ i.op

/-- The command the decoder reads from a table row's `nbits` bits `w`, every higher bit of the 32-bit word being 0. All commands have one
length, 32 bits (R71, R77): a longer word is none. -/
def decodeTableWord (nbits w : Nat) : Option Instr :=
  if nbits ≤ 32 then
    match decode (BitVec.ofNat 32 (w % 2 ^ nbits)) with
    | .command i => some i
    | .illegal _ => none
  else none

end Sys2Proof
end

