-- ==== Sys2Proof/Config.lean ====
section
/-! DEFINITION. What an implementation or its platform fixes (00_scope.md R11), and the free values the spec leaves open. -/

namespace Sys2Proof

/-- The parameters "the model takes as arguments" (R11). They stand in State and no step changes them, so that a statement about
every state is one about every parameter. `LATENCY` is absent: "The model gives it no value" (R11, R241; log 5). -/
structure Config where
  /-- `ENGINE_BASE` is a multiple of 0x200 (R11, R55): 0x200 times this. -/
  windowIndex : Nat
  /-- `TRACE_PRESENT`: whether the optional trace port exists (R175). -/
  tracePresent : Bool
deriving DecidableEq, Repr

/-- The platform address of the register window (R55). -/
def Config.engineBase (c : Config) : Nat := 0x200 * c.windowIndex

/-- The parameters that stand in `State.reset`. DESIGN CHOICE (log 3), unsafe for a claim about that one state alone: the spec gives
neither a value. -/
def Config.chosen : Config := ⟨0, true⟩

/-- Word `i` of the key-schedule RAM after the reset numbered `draw`: a free value, since KS after reset is "unspecified" (R39, I10; log 2). -/
opaque Config.freeKs (draw i : Nat) : Word

end Sys2Proof
end

