-- ==== Sys2Proof/Machine/State.lean ====
section
/-! DEFINITION. The machine's state (10_state.md R21), what the host and the platform can ask of it, why it can stop, and reset (R39). -/

namespace Sys2Proof.Machine

/-- STATUS.VAR: the four codes of 10_state.md R25, each legal (log 10). -/
inductive Variant where
  /-- 0b00, NONE: no engine constructed since reset. -/
  | none
  /-- 0b01 -/
  | aes128
  /-- 0b10 -/
  | aes192
  /-- 0b11 -/
  | aes256
deriving DecidableEq, Repr

/-- The direction of a trace event: "`dir` is ENC or DEC" (44_block_engine.md R175). -/
inductive Dir where
  | enc
  | dec
deriving DecidableEq, Repr

/-- One event `(dir, k, copy of S)` of the trace port (R175). -/
structure TraceEvent where
  dir : Dir
  k : Nat
  block : Block
deriving DecidableEq, Repr

/-- What the world outside the engine does to it. The address is the platform's (20_memory.md R55), the width is in bytes; only width 4 at an
aligned offset is admitted (R56). -/
inductive HostAccess where
  | read (addr width : Nat)
  /-- Of a write that is not 32 bits wide the value is never used: it is not admitted. -/
  | write (addr width : Nat) (value : Bits32)
  /-- The platform asserts the engine's reset input (70_reset_and_hazards.md R230). -/
  | reset
deriving DecidableEq, Repr

/-- The state record of 10_state.md R21 with the trace event list of R37, the parameters of 00_scope.md R11, and the model's own fields. -/
structure State where
  /-- The parameters ENGINE_BASE and TRACE_PRESENT (00_scope.md R11); no step changes them (log 3). -/
  cfg : Config
  /-- STATUS.ERR (R28). -/
  err : BitVec 4
  /-- STATUS.BUSY (R29). -/
  busy : Bool
  /-- STATUS.VAR (R25). -/
  var : Variant
  /-- STATUS.KSV (R26). -/
  ksv : Bool
  /-- The input buffer (R30). -/
  din : Vector Byte 32
  /-- The output buffer (R31). -/
  dout : Block
  /-- The key-schedule RAM (R32). -/
  ks : Vector Word 60
  /-- The trace events emitted, oldest first (R37). -/
  trace : List TraceEvent
  /-- The model's own (log 4): the accesses not yet taken, in the order issued. -/
  inbox : List HostAccess
  /-- The model's own (log 4): the values the host has read, oldest first (D26). -/
  reads : List Bits32
  /-- The model's own (log 2): how many free values have been drawn. -/
  draws : Nat
deriving DecidableEq, Repr

/-- A stop that the spec calls stuck. -/
inductive Fault where
  /-- A host access that is not 32 bits wide at an offset that is a multiple of 4: "it has no step, and the host agent is stuck"
  (20_memory.md R56, I12). Raised by `hostAccess`. Safe. -/
  | unadmittedAccess
  /-- A host access other than a STATUS read while BUSY = 1: "that access has no step" (70_reset_and_hazards.md R240, I5). Raised by
  `hostAccess`. Safe. -/
  | accessWhileBusy
deriving DecidableEq, Repr

/-- A stop at something the model gives no meaning. -/
inductive Refusal where
  /-- An instruction without a meaning. Raised by no arm: every command has its meaning. Safe. -/
  | notModelled (mnemonic : String)
  /-- An access at an address outside the engine's window: "Where the window sits and what lies outside it belong to the platform"
  (20_memory.md R55). Raised by `hostAccess`. Safe. -/
  | outsideWindow
deriving DecidableEq, Repr

/-- The state after reset for the parameters `c` (R39, R230). KS is "unspecified": all words zero is a DESIGN CHOICE (log 1), unsafe. -/
def State.resetOf (c : Config) : State where
  cfg := c
  err := 0
  busy := false
  var := .none
  ksv := false
  din := Vector.replicate 32 0
  dout := Vector.replicate 16 0
  ks := Vector.replicate 60 Word.zero
  trace := []
  inbox := []
  reads := []
  draws := 0

/-- The machine right after reset (R39), with the parameters of log 3. -/
def State.reset : State := State.resetOf Config.chosen

end Sys2Proof.Machine
end

