-- ==== Sys2Proof/Machine/Flags.lean ====
section
/-! DEFINITION. The STATUS register: the codes of its fields and its layout (10_state.md R24, R25; 60_exceptions.md R200). The engine
has no other flags, and no command sets a carry, zero or overflow flag (10_state.md R38). -/

namespace Sys2Proof.Machine

/-- The errors a command can raise (60_exceptions.md R200). -/
inductive Error where
  | illegalCommand
  | invalidKeyVariant
  | invalidKeyLength
  | invalidBlockLength
  | keyNotExpanded
deriving DecidableEq, Repr

/-- The code of an error in STATUS.ERR (R200). -/
def Error.code : Error → BitVec 4
  | .illegalCommand => 1
  | .invalidKeyVariant => 2
  | .invalidKeyLength => 3
  | .invalidBlockLength => 4
  | .keyNotExpanded => 5

/-- The 2-bit VAR code (10_state.md R25). -/
def Variant.code : Variant → BitVec 2
  | .none => 0b00
  | .aes128 => 0b01
  | .aes192 => 0b10
  | .aes256 => 0b11

/-- STATUS as the host reads it: "zext_32(KSV)<<20 | zext_32(VAR)<<16 | zext_32(BUSY)<<8 | zext_32(ERR)", every reserved bit 0
(20_memory.md R57, 10_state.md R24). -/
def statusWord (s : State) : Bits32 :=
  (BitVec.ofBool s.ksv).setWidth 32 <<< 20 ||| s.var.code.setWidth 32 <<< 16 |||
    (BitVec.ofBool s.busy).setWidth 32 <<< 8 ||| s.err.setWidth 32

end Sys2Proof.Machine
end

