-- ==== Sys2Proof/Machine/Operands.lean ====
section
/-! DEFINITION. The operands of commands: what ARG means (30_encoding.md R73), the parameters of a variant (00_scope.md R10,
10_state.md R27), the key and the block in DIN, and the checks of 60_exceptions.md R210. -/

namespace Sys2Proof.Machine

/-- The number of state columns, "always 4, independent of variant" (00_scope.md R9). -/
def nb : Nat := 4

/-- Nk and Nr of a variant (00_scope.md R10). -/
structure Params where
  nk : Nat
  nr : Nat
deriving DecidableEq, Repr

/-- (Nk, Nr) of STATUS.VAR, "undefined when VAR = NONE" (10_state.md R25, R27). -/
def Variant.params : Variant → Option Params
  | .none => Option.none
  | .aes128 => some ⟨4, 10⟩
  | .aes192 => some ⟨6, 12⟩
  | .aes256 => some ⟨8, 14⟩

/-- Nb·(Nr+1): the number of schedule words (00_scope.md R10). -/
def Params.words (p : Params) : Nat := nb * (p.nr + 1)

/-- KSLEN: Nb·(Nr+1), or 0 when no variant is configured (10_state.md R27). -/
def Variant.kslen (v : Variant) : Nat :=
  match v.params with
  | Option.none => 0
  | some p => p.words

/-- The variant that CONSTRUCT's ARG names, as a key size in bits (R73, 44_block_engine.md R160). -/
def Variant.ofKeyBits (arg : Nat) : Option Variant :=
  if arg = 128 then some .aes128
  else if arg = 192 then some .aes192
  else if arg = 256 then some .aes256
  else Option.none

/-- The raw key DIN[0 .. 4·Nk-1] (42_key_schedule.md R129). -/
def State.rawKey (s : State) (nk : Nat) : List Byte := s.din.toList.take (4 * nk)

/-- The block DIN[0..15] (44_block_engine.md R163, R167). -/
def State.blockIn (s : State) : Block := Vector.ofFn fun k : Fin 16 => s.din[k.val]

/-- The checks of EXPAND_KEY in the order of 60_exceptions.md R210: the variant, then the key length. -/
def checkKey (arg : Nat) (s : State) : Except Error Params :=
  match s.var.params with
  | Option.none => .error .invalidKeyVariant
  | some p => if arg ≠ 4 * p.nk then .error .invalidKeyLength else .ok p

/-- The checks of ENCRYPT_BLOCK and DECRYPT_BLOCK in the order of 60_exceptions.md R210: the variant, the block length, KSV. -/
def checkBlock (arg : Nat) (s : State) : Except Error Params :=
  match s.var.params with
  | Option.none => .error .invalidKeyVariant
  | some p =>
    if arg ≠ 16 then .error .invalidBlockLength
    else if s.ksv = false then .error .keyNotExpanded
    else .ok p

end Sys2Proof.Machine
end

