-- ==== Sys2Proof/Machine/Ops.lean ====
section
/-! DEFINITION. The shared operations over the state: raising an error (the engine's only exception), what a successful command writes,
the register window with its byte order, and reset. -/

namespace Sys2Proof.Machine

/-- `raise E`: "It writes STATUS.ERR <- code(E) and nothing else" (60_exceptions.md R203). This is all that taking an exception is
on this hardware: nothing is saved, no control is transferred, and there is no return (R213, R214). -/
def State.raise (s : State) (e : Error) : State := { s with err := e.code }

/-- A command's last action on success: ERR <- 0 (10_state.md R28). -/
def State.succeed (s : State) : State := { s with err := 0 }

/-- VAR <- code and KSV <- 0 (44_block_engine.md R160). -/
def State.configure (s : State) (v : Variant) : State := { s with var := v, ksv := false }

/-- KS[0 .. n-1] <- w[0 .. n-1]; the words from n on keep what they hold (42_key_schedule.md R129, R130). `w` has a word for each of the
n places (R128), so the default is never used (log 8). -/
def storeWords (w : List Word) (n : Nat) (ks : Vector Word 60) : Vector Word 60 :=
  Vector.ofFn fun i : Fin 60 => if i.val < n then w.getD i.val Word.zero else ks[i.val]

/-- The effect of EXPAND_KEY on KS and KSV (42_key_schedule.md R129). -/
def State.loadSchedule (s : State) (w : List Word) (n : Nat) : State :=
  { s with ks := storeWords w n s.ks, ksv := true }

/-- DOUT <- result, all 16 Bytes at once (44_block_engine.md R166, R169). -/
def State.deliver (s : State) (r : Block) : State := { s with dout := r }

/-- The trace port: events are appended if `TRACE_PRESENT`; "If not `TRACE_PRESENT`, `emit` does nothing" (44_block_engine.md R175). -/
def State.emit (s : State) (es : List TraceEvent) : State :=
  { s with trace := if s.cfg.tracePresent then s.trace ++ es else s.trace }

/-- Byte `j` of a Word (20_memory.md R54). -/
def byteOf (w : Word) (j : Nat) : Byte :=
  match j with
  | 0 => w.a0
  | 1 => w.a1
  | 2 => w.a2
  | _ => w.a3

/-- The 32-bit value of a Word on the host bus, `a0` in bits 31:24 (20_memory.md R53, R57). -/
def wordVal (w : Word) : Bits32 := w.a0 ++ w.a1 ++ w.a2 ++ w.a3

/-- The four Bytes of a 32-bit value, v[31:24] first (20_memory.md R53, R58). -/
def wordOfVal (v : Bits32) : Word :=
  ⟨v.extractLsb' 24 8, v.extractLsb' 16 8, v.extractLsb' 8 8, v.extractLsb' 0 8⟩

/-- `pack(X, j)`: the 32-bit register over X[4j], X[4j+1], X[4j+2], X[4j+3] (20_memory.md R53, R57). -/
def pack {n : Nat} (x : Vector Byte n) (j : Nat) (h : 4 * j + 3 < n) : Bits32 :=
  wordVal ⟨x[4 * j], x[4 * j + 1], x[4 * j + 2], x[4 * j + 3]⟩

/-- DIN[4j] .. DIN[4j+3] <- the four Bytes of the value (20_memory.md R58). -/
def State.writeDin (s : State) (j : Fin 8) (v : Bits32) : State :=
  let w := wordOfVal v
  { s with din :=
      (((s.din.set (4 * j.val) w.a0).set (4 * j.val + 1) w.a1).set (4 * j.val + 2) w.a2).set (4 * j.val + 3) w.a3 }

/-- The registers of the window (20_memory.md R52). -/
inductive Reg where
  | cmd
  | status
  | din (j : Fin 8)
  | dout (j : Fin 4)
  | ks (i : Fin 60)
  | reserved
deriving DecidableEq, Repr

/-- The window's map: which register an offset selects (20_memory.md R52). -/
def regAt (off : Nat) : Reg :=
  if off = 0x000 then .cmd
  else if off = 0x004 then .status
  else if h : 0x010 ≤ off ∧ off < 0x030 then .din ⟨(off - 0x010) / 4, by omega⟩
  else if h : 0x030 ≤ off ∧ off < 0x040 then .dout ⟨(off - 0x030) / 4, by omega⟩
  else if h : 0x100 ≤ off ∧ off < 0x1F0 then .ks ⟨(off - 0x100) / 4, by omega⟩
  else .reserved

/-- A host read of KS word `i`, behind the gate of 10_state.md R33. -/
def readKs (s : State) (i : Fin 60) : Bits32 :=
  if s.ksv = true ∧ i.val < s.var.kslen then wordVal s.ks[i.val] else 0

/-- The value of a register when the host reads it (20_memory.md R57; CMD reads 0, 10_state.md R23). -/
def readReg (s : State) (r : Reg) : Bits32 :=
  match r with
  | .cmd => 0
  | .status => statusWord s
  | .din j => pack s.din j.val (by omega)
  | .dout j => pack s.dout j.val (by omega)
  | .ks i => readKs s i
  | .reserved => 0

/-- `MemRead(off, 4)` at an admitted offset (20_memory.md R57). -/
def memRead (s : State) (off : Nat) : Bits32 := readReg s (regAt off)

/-- The offset that a host address selects in the window, if it selects the engine (20_memory.md R55). -/
def windowOffset (c : Config) (addr : Nat) : Option Nat :=
  if c.engineBase ≤ addr ∧ addr < c.engineBase + 0x200 then some (addr - c.engineBase) else Option.none

/-- Whether an access is admitted: 32 bits wide, at an offset that is a multiple of 4 (20_memory.md R56). -/
def admitted (off width : Nat) : Bool := decide (width = 4 ∧ off % 4 = 0)

/-- The host has read `v` (D26; log 4). -/
def State.observe (s : State) (v : Bits32) : State := { s with reads := s.reads ++ [v] }

/-- The accesses still to be taken (log 4). -/
def State.withInbox (s : State) (l : List HostAccess) : State := { s with inbox := l }

/-- The platform asserts reset: every piece of state takes its value of 10_state.md R39 (70_reset_and_hazards.md R230, R231), KS a free value
(log 2). The parameters, the accesses still to come and what the host has read are not the engine's state and stay (log 12). -/
def State.engineReset (s : State) : State :=
  { State.resetOf s.cfg with
    ks := Vector.ofFn fun i : Fin 60 => Config.freeKs s.draws i.val
    draws := s.draws + 1
    inbox := s.inbox
    reads := s.reads }

end Sys2Proof.Machine
end

