-- ==== Sys2Proof/Machine/GaloisField.lean ====
section
/-! DEFINITION. The GF(2^8) multiplier and the round constants (40_galois_field.md). -/

namespace Sys2Proof.Machine

/-- The loop of R100 with `n` iterations to go, on the accumulator `p` and the operands `a` and `b` as they then stand. -/
def gmulLoop : (n : Nat) → (p a b : Byte) → Byte
  | 0, p, _, _ => p
  | n + 1, p, a, b =>
    let p' := if b.getLsbD 0 then p ^^^ a else p
    let shifted := a <<< 1
    let a' := if a.getLsbD 7 then shifted ^^^ 0x1B#8 else shifted
    gmulLoop n p' a' (b >>> 1)

/-- Multiplication in GF(2^8): eight iterations (R100). -/
def gmul (a b : Byte) : Byte := gmulLoop 8 0 a b

/-- Doubling in GF(2^8), in the closed form of R102. -/
def xtime (a : Byte) : Byte := (a <<< 1) ^^^ (if a.getLsbD 7 then 0x1B#8 else 0x00#8)

/-- RCON[1..14]: the seed 0x01 and its doublings (R104). -/
def rconTable : List Byte := List.iterate xtime 0x01#8 14

/-- RCON[j], for j in 1..14 (R104). No rule reads RCON at another index (R104, R127): the 0 given there is never used (log 8). -/
def rcon : Nat → Byte
  | 0 => 0
  | j + 1 => rconTable.getD j 0

end Sys2Proof.Machine
end

