-- ==== Sys2Proof/Machine/RoundTransform.lean ====
section
/-! DEFINITION. The round primitives and their inverses (43_round_transform.md). Each computes every output Byte from the input block
(R149). -/

namespace Sys2Proof.Machine

/-- S[r][c] = S[4·c + r] (00_scope.md R15). -/
def entry (S : Block) (r c : Fin 4) : Byte := S[4 * c.val + r.val]

/-- The block whose byte at row r, column c is `f r c` (00_scope.md R15). -/
def ofEntries (f : Fin 4 → Fin 4 → Byte) : Block :=
  Vector.ofFn fun k : Fin 16 => f ⟨k.val % 4, by omega⟩ ⟨k.val / 4, by omega⟩

/-- Column c as a Word (00_scope.md R15). -/
def column (S : Block) (c : Fin 4) : Word := ⟨entry S 0 c, entry S 1 c, entry S 2 c, entry S 3 c⟩

/-- Word c of RoundKey(r): KS[4r+c] (R140). Rounds run to Nr ≤ 14, so the default is never used (log 8). -/
def roundKeyWord (ks : Vector Word 60) (r : Nat) (c : Fin 4) : Word := ks.getD (4 * r + c.val) Word.zero

/-- RoundKey(r) flattened: K[4c+j] = byte j of KS[4r+c] (R140). -/
def roundKey (ks : Vector Word 60) (r : Nat) : Block := ofEntries fun j c => byteOf (roundKeyWord ks r c) j.val

/-- XOR of each of the 16 bytes with the corresponding byte of the flattened round key (R141). -/
def addRoundKey (S K : Block) : Block := ofEntries fun j c => entry S j c ^^^ entry K j c

/-- S'[k] <- SBOX[S[k]] (R142). -/
def subBytes (S : Block) : Block := S.map sbox

/-- S'[k] <- INV_SBOX[S[k]] (R143). -/
def invSubBytes (S : Block) : Block := S.map invSbox

/-- S'[r][c] <- S[r][(c + r) mod 4] (R144). -/
def shiftRows (S : Block) : Block := ofEntries fun r c => entry S r ⟨(c.val + r.val) % 4, by omega⟩

/-- S'[r][c] <- S[r][(c - r) mod 4], "i.e. (c + 4 - r) mod 4" (R145). -/
def invShiftRows (S : Block) : Block := ofEntries fun r c => entry S r ⟨(c.val + 4 - r.val) % 4, by omega⟩

/-- One column of MixColumns: the four equations of R146. -/
def mixColumn (c : Word) : Word :=
  ⟨gmul 2 c.a0 ^^^ gmul 3 c.a1 ^^^ c.a2 ^^^ c.a3,
   c.a0 ^^^ gmul 2 c.a1 ^^^ gmul 3 c.a2 ^^^ c.a3,
   c.a0 ^^^ c.a1 ^^^ gmul 2 c.a2 ^^^ gmul 3 c.a3,
   gmul 3 c.a0 ^^^ c.a1 ^^^ c.a2 ^^^ gmul 2 c.a3⟩

/-- MixColumns (R146). -/
def mixColumns (S : Block) : Block := ofEntries fun r c => byteOf (mixColumn (column S c)) r.val

/-- One column of InvMixColumns: the four equations of R147. -/
def invMixColumn (c : Word) : Word :=
  ⟨gmul 0x0e c.a0 ^^^ gmul 0x0b c.a1 ^^^ gmul 0x0d c.a2 ^^^ gmul 0x09 c.a3,
   gmul 0x09 c.a0 ^^^ gmul 0x0e c.a1 ^^^ gmul 0x0b c.a2 ^^^ gmul 0x0d c.a3,
   gmul 0x0d c.a0 ^^^ gmul 0x09 c.a1 ^^^ gmul 0x0e c.a2 ^^^ gmul 0x0b c.a3,
   gmul 0x0b c.a0 ^^^ gmul 0x0d c.a1 ^^^ gmul 0x09 c.a2 ^^^ gmul 0x0e c.a3⟩

/-- InvMixColumns (R147). -/
def invMixColumns (S : Block) : Block := ofEntries fun r c => byteOf (invMixColumn (column S c)) r.val

end Sys2Proof.Machine
end

