-- ==== Sys2Proof/Machine/BlockEngine.lean ====
section
/-! DEFINITION. The block engine (44_block_engine.md): the commands CONSTRUCT, ENCRYPT_BLOCK and DECRYPT_BLOCK, the round sequences
Cipher and InvCipher, and what they emit on the trace port. -/

namespace Sys2Proof.Machine

/-- CONSTRUCT(ARG) (R160). -/
def execConstruct (arg : Nat) (s : State) : Host.Outcome State Fault Refusal :=
  match Variant.ofKeyBits arg with
  | Option.none => .next (s.raise .invalidKeyVariant)
  | some v => .next (s.configure v).succeed

/-- A block command under way: the working State, which is local to the command (10_state.md R35), and the events emitted so far. -/
structure BlockRun where
  block : Block
  events : List TraceEvent
deriving DecidableEq, Repr

/-- Apply one round's primitives and emit TRACE(k, S) (R164, R168). -/
def BlockRun.advance (r : BlockRun) (dir : Dir) (k : Nat) (f : Block → Block) : BlockRun :=
  let S := f r.block
  ⟨S, r.events ++ [⟨dir, k, S⟩]⟩

/-- The rounds 1 .. Nr-1, ascending (R164). -/
def middleRounds (nr : Nat) : List Nat := List.range' 1 (nr - 1)

/-- A middle round of Cipher (R164). -/
def encRound (ks : Vector Word 60) (round : Nat) (S : Block) : Block :=
  addRoundKey (mixColumns (shiftRows (subBytes S))) (roundKey ks round)

/-- The final round of Cipher, without MixColumns (R164). -/
def encFinal (ks : Vector Word 60) (nr : Nat) (S : Block) : Block :=
  addRoundKey (shiftRows (subBytes S)) (roundKey ks nr)

/-- Cipher(in, Nr) with its trace (R164). -/
def cipher (ks : Vector Word 60) (nr : Nat) (input : Block) : BlockRun :=
  let start := BlockRun.advance ⟨input, []⟩ .enc 0 fun S => addRoundKey S (roundKey ks 0)
  let middle := (middleRounds nr).foldl (fun r round => r.advance .enc round (encRound ks round)) start
  middle.advance .enc nr (encFinal ks nr)

/-- A middle round of InvCipher: AddRoundKey before InvMixColumns (R168). -/
def decRound (ks : Vector Word 60) (round : Nat) (S : Block) : Block :=
  invMixColumns (addRoundKey (invSubBytes (invShiftRows S)) (roundKey ks round))

/-- The final round of InvCipher (R168). -/
def decFinal (ks : Vector Word 60) (S : Block) : Block :=
  addRoundKey (invSubBytes (invShiftRows S)) (roundKey ks 0)

/-- InvCipher(in, Nr) with its trace (R168). -/
def invCipher (ks : Vector Word 60) (nr : Nat) (input : Block) : BlockRun :=
  let start := BlockRun.advance ⟨input, []⟩ .dec 0 fun S => addRoundKey S (roundKey ks nr)
  let middle :=
    (middleRounds nr).reverse.foldl (fun r round => r.advance .dec (nr - round) (decRound ks round)) start
  middle.advance .dec nr (decFinal ks)

/-- What a successful block command writes: DOUT, the trace, ERR <- 0 (R166, R169, R175). -/
def State.finishBlock (s : State) (r : BlockRun) : State := ((s.deliver r.block).emit r.events).succeed

/-- ENCRYPT_BLOCK(ARG) (R163). -/
def execEncryptBlock (arg : Nat) (s : State) : Host.Outcome State Fault Refusal :=
  match checkBlock arg s with
  | .error e => .next (s.raise e)
  | .ok p => .next (s.finishBlock (cipher s.ks p.nr s.blockIn))

/-- DECRYPT_BLOCK(ARG) (R167). -/
def execDecryptBlock (arg : Nat) (s : State) : Host.Outcome State Fault Refusal :=
  match checkBlock arg s with
  | .error e => .next (s.raise e)
  | .ok p => .next (s.finishBlock (invCipher s.ks p.nr s.blockIn))

end Sys2Proof.Machine
end

