-- ==== Sys2Proof/Machine/KeySchedule.lean ====
section
/-! DEFINITION. The key schedule expander and the command EXPAND_KEY (42_key_schedule.md). -/

namespace Sys2Proof.Machine

/-- RotWord([a0,a1,a2,a3]) = [a1,a2,a3,a0] (R121). -/
def rotWord (w : Word) : Word := ⟨w.a1, w.a2, w.a3, w.a0⟩

/-- The forward S-box on each of the four Bytes (R122). -/
def subWord (w : Word) : Word := ⟨sbox w.a0, sbox w.a1, sbox w.a2, sbox w.a3⟩

/-- Byte-wise exclusive-or of two Words (R123). -/
def wordXor (w v : Word) : Word := ⟨w.a0 ^^^ v.a0, w.a1 ^^^ v.a1, w.a2 ^^^ v.a2, w.a3 ^^^ v.a3⟩

/-- The round constant as a Word: "XORed only into the first byte of the word" (R123). -/
def rconWord (j : Nat) : Word := ⟨rcon j, 0x00, 0x00, 0x00⟩

/-- What R124 does to `temp` = w[i-1] before it is XORed into w[i]. -/
def scheduleTemp (nk i : Nat) (temp : Word) : Word :=
  if i % nk = 0 then wordXor (subWord (rotWord temp)) (rconWord (i / nk))
  else if 6 < nk ∧ i % nk = 4 then subWord temp
  else temp

/-- w[i] for i = the number of words made so far: w[i-Nk] ⊕ temp (R124). Both words read exist (R108), so the defaults are never used (log 8). -/
def nextWord (nk : Nat) (w : List Word) : Word :=
  wordXor (w.getD (w.length - nk) Word.zero) (scheduleTemp nk w.length (w.getD (w.length - 1) Word.zero))

/-- The second loop of R124: `n` more words. -/
def expandFrom (nk : Nat) : (n : Nat) → List Word → List Word
  | 0, w => w
  | n + 1, w => expandFrom nk n (w ++ [nextWord nk w])

/-- "split the raw key into the first Nk words directly": w[i] = [key[4i], key[4i+1], key[4i+2], key[4i+3]] (R124, R125, 20_memory.md R54). -/
def keyWords (key : List Byte) (nk : Nat) : List Word :=
  (List.range nk).map fun i =>
    ⟨key.getD (4 * i) 0, key.getD (4 * i + 1) 0, key.getD (4 * i + 2) 0, key.getD (4 * i + 3) 0⟩

/-- KeyExpansion(key, Nk, Nr): the words w[0 .. Nb·(Nr+1)-1] (R124). -/
def keyExpansion (key : List Byte) (p : Params) : List Word :=
  expandFrom p.nk (p.words - p.nk) (keyWords key p.nk)

/-- EXPAND_KEY(ARG) (R129). -/
def execExpandKey (arg : Nat) (s : State) : Host.Outcome State Fault Refusal :=
  match checkKey arg s with
  | .error e => .next (s.raise e)
  | .ok p => .next (s.loadSchedule (keyExpansion (s.rawKey p.nk) p) p.words).succeed

end Sys2Proof.Machine
end

