-- ==== Sys2Proof/Machine/Dispatch.lean ====
section
/-! DEFINITION. The meaning of each command: one arm per constructor of Instr (30_encoding.md R76). -/

namespace Sys2Proof.Machine

def exec (i : Instr) (s : State) : Host.Outcome State Fault Refusal :=
  match i with
  | .construct arg => Sys2Proof.Machine.execConstruct arg s
  | .expandKey arg => Sys2Proof.Machine.execExpandKey arg s
  | .encryptBlock arg => Sys2Proof.Machine.execEncryptBlock arg s
  | .decryptBlock arg => Sys2Proof.Machine.execDecryptBlock arg s

end Sys2Proof.Machine
end

