-- ==== Sys2Proof/Machine/HostWindow.lean ====
section
/-! DEFINITION. The host's accesses to the register window (20_memory.md) and the platform's reset. -/

namespace Sys2Proof.Machine

/-- `Execute(v)`: decode the word written to CMD and run the command to completion; an illegal word raises IllegalCommand and has no other
effect (30_encoding.md R70, R75, R76). -/
def execute (v : Bits32) (s : State) : Host.Outcome State Fault Refusal :=
  match decode v with
  | .illegal _ => .next (s.raise .illegalCommand)
  | .command i => exec i s

/-- `MemWrite(off, 4, v)` at an admitted offset (20_memory.md R58). -/
def memWrite (off : Nat) (v : Bits32) (s : State) : Host.Outcome State Fault Refusal :=
  match regAt off with
  | .cmd => execute v s
  | .din j => .next (s.writeDin j v)
  | .status => .next s
  | .dout _ => .next s
  | .ks _ => .next s
  | .reserved => .next s

/-- A host read: admitted (R56), and while BUSY = 1 only of STATUS (70_reset_and_hazards.md R240); it changes no state of the engine
(R57). Which stop an access with several faults gets is a DESIGN CHOICE (log 6). -/
def hostRead (addr width : Nat) (s : State) : Host.Outcome State Fault Refusal :=
  match windowOffset s.cfg addr with
  | Option.none => .refused .outsideWindow
  | some off =>
    if admitted off width = false then .fault .unadmittedAccess
    else if s.busy = true ∧ regAt off ≠ .status then .fault .accessWhileBusy
    else .next (s.observe (memRead s off))

/-- A host write: "admitted only while BUSY = 0" (20_memory.md R58). -/
def hostWrite (addr width : Nat) (v : Bits32) (s : State) : Host.Outcome State Fault Refusal :=
  match windowOffset s.cfg addr with
  | Option.none => .refused .outsideWindow
  | some off =>
    if admitted off width = false then .fault .unadmittedAccess
    else if s.busy = true then .fault .accessWhileBusy
    else memWrite off v s

/-- One access of the outside world. Reset may come at any time, BUSY or not (70_reset_and_hazards.md R230, R231). -/
def hostAccess (a : HostAccess) (s : State) : Host.Outcome State Fault Refusal :=
  match a with
  | .read addr width => hostRead addr width s
  | .write addr width v => hostWrite addr width v s
  | .reset => .next s.engineReset

/-- The oldest pending access is taken; with none pending the engine is idle, "and it holds its state" (60_exceptions.md R225). -/
def takeAccess (s : State) : Host.Outcome State Fault Refusal :=
  match s.inbox with
  | [] => .next s
  | a :: rest => hostAccess a (s.withInbox rest)

/-- The host is about to write the command word `v` to CMD, and may: BUSY = 0 (R240; log 18). -/
def State.withCommand (s : State) (v : Bits32) : State :=
  { s with busy := false, inbox := .write s.cfg.engineBase 4 v :: s.inbox }

end Sys2Proof.Machine
end

