-- ==== Sys2Proof/Machine/Step.lean ====
section
/-! DEFINITION. One step of the machine: one access of the host or the platform (20_memory.md R50, R61, R62). -/

namespace Sys2Proof.Machine

/-- Each host access is one step, a command among them (D1). -/
def step (s : State) : Host.Outcome State Fault Refusal := takeAccess s

/-- `s` with the command word `w` standing where the engine takes its next command: as a write to CMD at the head of the host's pending
accesses. The engine fetches nothing (10_state.md R22; log 4). -/
def State.withFetchWord (s : State) (nbits w : Nat) : State := s.withCommand (BitVec.ofNat 32 (w % 2 ^ nbits))

end Sys2Proof.Machine
end

