-- ==== Sys2Proof/Machine/HostProgram.lean ====
section
/-! DEFINITION. The spec's notation for host programs (30_encoding.md R80), its pseudo-operations and what the assembler refuses (R81),
and how a host runs such a program against the engine. The engine itself runs no program (10_state.md R22). -/

namespace Sys2Proof.Machine

/-- A host variable or a named label, by number; `part` tells apart the four variables of `rdout -> X` (R81). -/
structure HostName where
  name : Nat
  part : Nat
deriving DecidableEq, Repr

/-- "a position in the host program" (R80): one the program names, or the loop of the `poll` on the given line (R81). -/
inductive HostLabel where
  | named (n : HostName)
  | pollOf (line : Nat)
deriving DecidableEq, Repr

/-- A host variable: one the program names, or the one a `poll` reads into (R81). -/
inductive HostVar where
  | named (n : HostName)
  | polled
deriving DecidableEq, Repr

/-- What `wr` writes: a constant "or a host variable set by an earlier `rd`" (R80). -/
inductive HostValue where
  | const (v : Bits32)
  | var (t : HostVar)
deriving DecidableEq, Repr

/-- The operations of R80. -/
inductive HostOp where
  | wr (off : Nat) (v : HostValue)
  | rd (off : Nat) (t : HostVar)
  | label (l : HostLabel)
  | bnz (t : HostVar) (mask : Bits32) (l : HostLabel)
deriving DecidableEq, Repr

/-- A line of a host program: an operation (R80) or a pseudo-operation (R81). -/
inductive HostLine where
  | op (o : HostOp)
  | poll
  | construct (n : Nat)
  | expand (n : Nat)
  | encrypt (n : Nat)
  | decrypt (n : Nat)
  | ldin (bytes : List Byte)
  | rdout (x : Nat)
  | rdks (i : Nat) (t : HostVar)
  | status (t : HostVar)
deriving DecidableEq, Repr

/-- `poll`: "wait for BUSY = 0" (R81). -/
def expandPoll (line : Nat) : List HostOp :=
  [.label (.pollOf line), .rd 0x004 .polled, .bnz .polled 0x100 (.pollOf line)]

/-- A command and its `poll`; the assembler must refuse an N that ARG cannot hold (R81). -/
def expandCommand (line : Nat) (i : Instr) : Option (List HostOp) :=
  if i.wf then some (.wr 0x000 (.const (encode i)) :: expandPoll line) else Option.none

/-- The writes of `ldin`: one for each 4-byte group, read big-endian (R81). -/
def expandLdin (bytes : List Byte) : List HostOp :=
  (List.range (bytes.length / 4)).map fun j =>
    .wr (0x010 + 4 * j) (.const (wordVal
      ⟨bytes.getD (4 * j) 0, bytes.getD (4 * j + 1) 0, bytes.getD (4 * j + 2) 0, bytes.getD (4 * j + 3) 0⟩))

/-- The expansion of one line, or a refusal of the assembler (R81). -/
def expandLine (line : Nat) : HostLine → Option (List HostOp)
  | .op o => some [o]
  | .poll => some (expandPoll line)
  | .construct n => expandCommand line (.construct n)
  | .expand n => expandCommand line (.expandKey n)
  | .encrypt n => expandCommand line (.encryptBlock n)
  | .decrypt n => expandCommand line (.decryptBlock n)
  | .ldin bytes => if bytes.length % 4 = 0 ∧ bytes.length ≤ 32 then some (expandLdin bytes) else Option.none
  | .rdout x => some ((List.range 4).map fun k => .rd (0x030 + 4 * k) (.named ⟨x, k⟩))
  | .rdks i t => some [.rd (0x100 + 4 * i) t]
  | .status t => some [.rd 0x004 t]

/-- The assembler, from the line numbered `line` on: every line's expansion in order, or a refusal. -/
def assembleFrom : (line : Nat) → List HostLine → Option (List HostOp)
  | _, [] => some []
  | line, l :: rest =>
    match expandLine line l, assembleFrom (line + 1) rest with
    | some a, some b => some (a ++ b)
    | _, _ => Option.none

/-- A host running an assembled program against the engine: the next operation is the one at `pos`. -/
structure HostState where
  program : List HostOp
  pos : Nat
  vars : List (HostVar × Bits32)
  engine : State
deriving DecidableEq, Repr

/-- The value of a host variable, if an earlier `rd` has set it (R80). -/
def hostLookup (vars : List (HostVar × Bits32)) (t : HostVar) : Option Bits32 := vars.lookup t

/-- The 32-bit value `wr` writes (R80). -/
def hostValue (vars : List (HostVar × Bits32)) : HostValue → Option Bits32
  | .const v => some v
  | .var t => hostLookup vars t

/-- One access of the host's to the engine, which the engine takes at once (20_memory.md R50, R62). -/
def engineAccess (a : HostAccess) (s : State) : Host.Outcome State Fault Refusal := step (s.withInbox (a :: s.inbox))

/-- The host at the next operation with the engine as an access has left it; a stop of the engine stops the host. -/
def hostAdvance (h : HostState) (vars : List (HostVar × Bits32) → State → List (HostVar × Bits32)) :
    Host.Outcome State Fault Refusal → Host.Outcome HostState Fault Refusal
  | .next t => .next { h with pos := h.pos + 1, vars := vars h.vars t, engine := t }
  | .fault r => .fault r
  | .refused r => .refused r

/-- One operation of the host (R80). No step where the program has ended, or uses a variable or a label that it has not set (log 14). -/
def hostProgramStep (h : HostState) : Option (Host.Outcome HostState Fault Refusal) :=
  match h.program[h.pos]? with
  | Option.none => Option.none
  | some (.wr off v) =>
    match hostValue h.vars v with
    | Option.none => Option.none
    | some x =>
      some (hostAdvance h (fun vars _ => vars)
        (engineAccess (.write (h.engine.cfg.engineBase + off) 4 x) h.engine))
  | some (.rd off t) =>
    some (hostAdvance h (fun vars e => (t, e.reads.getLastD 0) :: vars)
      (engineAccess (.read (h.engine.cfg.engineBase + off) 4) h.engine))
  | some (.label _) => some (.next { h with pos := h.pos + 1 })
  | some (.bnz t mask l) =>
    match hostLookup h.vars t with
    | Option.none => Option.none
    | some x =>
      if x &&& mask = 0 then some (.next { h with pos := h.pos + 1 })
      else
        match h.program.findIdx? (fun o => decide (o = .label l)) with
        | Option.none => Option.none
        | some k => some (.next { h with pos := k })

end Sys2Proof.Machine
end

