-- ==== Sys2Proof/Machine/Ports.lean ====
section
/-! DEFINITION. The hardware units as combinational functions of their ports (rules R106, R115, R132, R151 and R173). "Only the functions are
architectural": the commands use the same functions directly. -/

namespace Sys2Proof.Machine

/-- Byte k of a block on a 128-bit bus: "bits `[127-8k : 120-8k]`, so byte 0 is most significant" (43_round_transform.md R151). -/
def busByte (bus : BitVec 128) (k : Nat) : Byte := bus.extractLsb' (120 - 8 * k) 8

/-- The block on a 128-bit bus (R151). -/
def blockOfBus (bus : BitVec 128) : Block := Vector.ofFn fun k : Fin 16 => busByte bus k.val

/-- A block as it stands on a 128-bit bus (R151). -/
def busOfBlock (S : Block) : BitVec 128 :=
  S.toList.foldl (fun bus b => (bus <<< 8) ||| b.setWidth 128) 0

/-- The GFMUL unit: p = gmul(a, b) (40_galois_field.md R106). -/
def gfmulPort (a b : BitVec 8) : BitVec 8 := gmul a b

/-- The S-box unit: "y[7:0] = if inv = 0 then SBOX[x] else INV_SBOX[x]" (41_substitution.md R115). -/
def sboxPort (x : BitVec 8) (inv : BitVec 1) : BitVec 8 := if inv = 0 then sbox x else invSbox x

/-- The AddRoundKey XOR unit, with the flattened round key on `k` (R151). -/
def addRoundKeyPort (sIn k : BitVec 128) : BitVec 128 := busOfBlock (addRoundKey (blockOfBus sIn) (blockOfBus k))

/-- The SubBytes unit and its inverse (R151). -/
def subBytesPort (inverse : BitVec 1) (sIn : BitVec 128) : BitVec 128 :=
  busOfBlock (if inverse = 0 then subBytes (blockOfBus sIn) else invSubBytes (blockOfBus sIn))

/-- The ShiftRows permutation and its inverse (R151). -/
def shiftRowsPort (inverse : BitVec 1) (sIn : BitVec 128) : BitVec 128 :=
  busOfBlock (if inverse = 0 then shiftRows (blockOfBus sIn) else invShiftRows (blockOfBus sIn))

/-- The MixColumns matrix transform and its inverse (R151). -/
def mixColumnsPort (inverse : BitVec 1) (sIn : BitVec 128) : BitVec 128 :=
  busOfBlock (if inverse = 0 then mixColumns (blockOfBus sIn) else invMixColumns (blockOfBus sIn))

/-- The KEYEXP unit: it reads DIN[0..4·Nk-1] and (Nk, Nr), and writes KS (42_key_schedule.md R132). -/
def keyExpPort (din : Vector Byte 32) (p : Params) (ks : Vector Word 60) : Vector Word 60 :=
  storeWords (keyExpansion (din.toList.take (4 * p.nk)) p) p.words ks

/-- The forward engine: it reads DIN[0..15] and the round keys in KS, and writes DOUT (44_block_engine.md R173). -/
def forwardPort (block : Block) (ks : Vector Word 60) (nr : Nat) : Block := (cipher ks nr block).block

/-- The inverse engine (44_block_engine.md R173). -/
def inversePort (block : Block) (ks : Vector Word 60) (nr : Nat) : Block := (invCipher ks nr block).block

end Sys2Proof.Machine
end

