-- ==== Sys2Proof/Safety.lean ====
section
/-! DEFINITION. What a safe run is: the invariant of the machine, the accesses the host may make, and the two equivalences of states that
say what the host and the trace cannot see or change. -/

namespace Sys2Proof.Machine

/-- The machine's invariant. -/
structure Inv (s : State) : Prop where
  /-- "In the model a command is one atomic step, so a host read always sees BUSY = 0" (10_state.md R29). -/
  notBusy : s.busy = false
  /-- Codes 6 to 15 are "never produced" (60_exceptions.md R200). -/
  errLegal : s.err.toNat ≤ 5
  /-- When KSV = 1 a variant is configured and KS[0..KSLEN-1] is the key schedule of some raw key for it (10_state.md R26; log 16). -/
  scheduleValid : s.ksv = true →
    ∃ (p : Params) (key : List Byte), s.var.params = some p ∧ key.length = 4 * p.nk ∧
      ∀ (i : Nat) (h : i < 60), i < p.words → (keyExpansion key p)[i]? = some s.ks[i]
  /-- "An engine without the trace port has no such output" (10_state.md R37). -/
  traceAbsent : s.cfg.tracePresent = false → s.trace = []

/-- An access the model admits in `s`: reset at any time; otherwise in the window, 32 bits wide and aligned (20_memory.md R55, R56), and
while BUSY = 1 a read of STATUS only (70_reset_and_hazards.md R240). -/
def accessAllowed (s : State) (a : HostAccess) : Prop :=
  match a with
  | .reset => True
  | .read addr width => ∃ off, windowOffset s.cfg addr = some off ∧ width = 4 ∧ off % 4 = 0 ∧ (s.busy = true → off = 4)
  | .write addr width _ => ∃ off, windowOffset s.cfg addr = some off ∧ width = 4 ∧ off % 4 = 0 ∧ s.busy = false

/-- Two states that differ at most in KS words behind the gate of 10_state.md R33: those not at an index below KSLEN while KSV = 1. -/
structure GateEq (s t : State) : Prop where
  cfg : s.cfg = t.cfg
  err : s.err = t.err
  busy : s.busy = t.busy
  var : s.var = t.var
  ksv : s.ksv = t.ksv
  din : s.din = t.din
  dout : s.dout = t.dout
  trace : s.trace = t.trace
  inbox : s.inbox = t.inbox
  reads : s.reads = t.reads
  draws : s.draws = t.draws
  visibleKs : s.ksv = true → ∀ (i : Nat) (h : i < 60), i < s.var.kslen → s.ks[i] = t.ks[i]

/-- Two states that differ at most in whether there is a trace port and in what it has output (44_block_engine.md R177). -/
structure TraceBlindEq (s t : State) : Prop where
  windowIndex : s.cfg.windowIndex = t.cfg.windowIndex
  err : s.err = t.err
  busy : s.busy = t.busy
  var : s.var = t.var
  ksv : s.ksv = t.ksv
  din : s.din = t.din
  dout : s.dout = t.dout
  ks : s.ks = t.ks
  inbox : s.inbox = t.inbox
  reads : s.reads = t.reads
  draws : s.draws = t.draws

/-- Two outcomes of the same kind, with the same reason for a stop, or next states related by `R`. -/
inductive OutcomeRel (R : State → State → Prop) :
    Host.Outcome State Fault Refusal → Host.Outcome State Fault Refusal → Prop where
  | next {s t : State} : R s t → OutcomeRel R (.next s) (.next t)
  | fault (r : Fault) : OutcomeRel R (.fault r) (.fault r)
  | refused (r : Refusal) : OutcomeRel R (.refused r) (.refused r)

end Sys2Proof.Machine
end

