-- ==== Sys2Proof/Certificates/Slice0/Obligations.lean ====
section
/-! DEFINITION. The statements about the model, from the numbered rules of spec/. Where a docstring names a log entry, that clause is the
model's choice and no rule of the spec. -/

open Sys2Proof Sys2Proof.Machine

/-! ## Encoding -/

/-- Every command that can be encoded decodes to itself, at every value of ARG (30_encoding.md sections 1 and 3). -/
def Obligations.DecodeInvertsEncode : Prop :=
  ∀ i : Instr, i.wf = true → decode (encode i) = .command i

/-- A word that decodes to a command is that command's only word, and the command is one that can be encoded. -/
def Obligations.EncodeInvertsDecode : Prop :=
  ∀ (v : Bits32) (i : Instr), decode v = .command i → i.wf = true ∧ encode i = v

/-- The word of a command as a number: `(ARG << 16) | OP`, RSV zero (30_encoding.md section 1). -/
def Obligations.CommandWordLayout : Prop :=
  ∀ n : Nat, n ≤ 65535 →
    (encode (.construct n)).toNat = n * 65536 + 1 ∧
    (encode (.expandKey n)).toNat = n * 65536 + 2 ∧
    (encode (.encryptBlock n)).toNat = n * 65536 + 3 ∧
    (encode (.decryptBlock n)).toNat = n * 65536 + 4

/-- The eight words of the table of R79, written bit by bit, decode to the commands it names. -/
def Obligations.TableWordsDecode : Prop :=
  decode 0b00000000100000000000000000000001 = .command (.construct 128) ∧
  decode 0b00000000110000000000000000000001 = .command (.construct 192) ∧
  decode 0b00000001000000000000000000000001 = .command (.construct 256) ∧
  decode 0b00000000000100000000000000000010 = .command (.expandKey 16) ∧
  decode 0b00000000000110000000000000000010 = .command (.expandKey 24) ∧
  decode 0b00000000001000000000000000000010 = .command (.expandKey 32) ∧
  decode 0b00000000000100000000000000000011 = .command (.encryptBlock 16) ∧
  decode 0b00000000000100000000000000000100 = .command (.decryptBlock 16)

/-- R74, R75: the illegal words are those with RSV ≠ 0 or OP 0 or 5 to 15; each sets ERR to 1 and changes nothing else; every other word
is a command. -/
def Obligations.IllegalWordsOnlySetErr : Prop :=
  ∀ v : Bits32,
    ((v.toNat / 16 % 4096 ≠ 0 ∨ v.toNat % 16 = 0 ∨ 5 ≤ v.toNat % 16) →
      ∀ s : State, execute v s = .next { s with err := 1 }) ∧
    (¬(v.toNat / 16 % 4096 ≠ 0 ∨ v.toNat % 16 = 0 ∨ 5 ≤ v.toNat % 16) → ∃ i, decode v = .command i)

/-- A step runs the command the host writes to CMD (30_encoding.md section 1): with that write the oldest pending access and BUSY = 0, a step is
`exec` of the decoded command with the access taken. The second clause is the same through `withFetchWord`, which is the model's own
(logs 4, 18). -/
def Obligations.StepRunsDecodedCommand : Prop :=
  (∀ (s : State) (v : Bits32) (rest : List HostAccess) (i : Instr),
    s.inbox = .write s.cfg.engineBase 4 v :: rest → s.busy = false → decode v = .command i →
      step s = exec i { s with inbox := rest }) ∧
  (∀ (s : State) (nbits w : Nat) (i : Instr),
    decodeTableWord nbits w = some i → step (s.withFetchWord nbits w) = exec i { s with busy := false })

/-- The words that can succeed are exactly eight, each under the condition of the table of R79 (which the spec derives). -/
def Obligations.SucceedingWordsAreTheEight : Prop :=
  ∀ (v : Bits32) (s : State),
    (∃ t, execute v s = .next t ∧ t.err = 0) ↔
      v = 0x00800001 ∨ v = 0x00C00001 ∨ v = 0x01000001 ∨
      (v = 0x00100002 ∧ s.var = .aes128) ∨ (v = 0x00180002 ∧ s.var = .aes192) ∨ (v = 0x00200002 ∧ s.var = .aes256) ∨
      (v = 0x00100003 ∧ s.var ≠ .none ∧ s.ksv = true) ∨ (v = 0x00100004 ∧ s.var ≠ .none ∧ s.ksv = true)

/-! ## The four commands -/

/-- The parameters of each variant (00_scope.md section 4, 10_state.md section 3): (Nk, Nr), and the key bytes, schedule words and round
keys that the spec derives from them; none, and KSLEN = 0, for NONE. -/
def Obligations.VariantParameters : Prop :=
  nb = 4 ∧
  (Variant.none.params = none ∧ Variant.none.kslen = 0) ∧
  (Variant.aes128.params = some ⟨4, 10⟩ ∧ Variant.aes128.params.map (fun p => 4 * p.nk) = some 16 ∧
    Variant.aes128.kslen = 44 ∧ Variant.aes128.params.map (fun p => nb * (p.nr + 1)) = some 44 ∧
    Variant.aes128.params.map (fun p => p.nr + 1) = some 11) ∧
  (Variant.aes192.params = some ⟨6, 12⟩ ∧ Variant.aes192.params.map (fun p => 4 * p.nk) = some 24 ∧
    Variant.aes192.kslen = 52 ∧ Variant.aes192.params.map (fun p => nb * (p.nr + 1)) = some 52 ∧
    Variant.aes192.params.map (fun p => p.nr + 1) = some 13) ∧
  (Variant.aes256.params = some ⟨8, 14⟩ ∧ Variant.aes256.params.map (fun p => 4 * p.nk) = some 32 ∧
    Variant.aes256.kslen = 60 ∧ Variant.aes256.params.map (fun p => nb * (p.nr + 1)) = some 60 ∧
    Variant.aes256.params.map (fun p => p.nr + 1) = some 15)

/-- R160, R161: CONSTRUCT selects the variant of key size ARG, clears KSV and ERR and changes nothing else, after which STATUS shows the
variant's code and every KS register reads 0; for any other ARG it raises InvalidKeyVariant and changes nothing else. -/
def Obligations.ConstructSelectsVariant : Prop :=
  ∀ (arg : Nat) (s : State),
    (arg = 128 → exec (.construct arg) s = .next { s with var := .aes128, ksv := false, err := 0 }) ∧
    (arg = 192 → exec (.construct arg) s = .next { s with var := .aes192, ksv := false, err := 0 }) ∧
    (arg = 256 → exec (.construct arg) s = .next { s with var := .aes256, ksv := false, err := 0 }) ∧
    (arg ≠ 128 → arg ≠ 192 → arg ≠ 256 → exec (.construct arg) s = .next { s with err := 2 }) ∧
    (∀ t, exec (.construct arg) s = .next t → t.err = 0 →
      (memRead t 0x004).extractLsb' 16 2 = (if arg = 128 then 0b01 else if arg = 192 then 0b10 else 0b11) ∧
      ∀ i, i < 60 → memRead t (0x100 + 4 * i) = 0) ∧
    (arg ≤ 65535 → (encode (.construct arg)).toNat = arg * 65536 + 1)

/-- R129: EXPAND_KEY raises InvalidKeyVariant with no variant, InvalidKeyLength for another length than the variant's; otherwise it stores
the expansion of DIN[0..4·Nk-1] in KS[0..KSLEN-1], sets KSV and clears ERR. In each case nothing else changes. -/
def Obligations.ExpandKeyLoadsSchedule : Prop :=
  ∀ (arg : Nat) (s : State),
    (s.var = .none → exec (.expandKey arg) s = .next { s with err := 2 }) ∧
    (∀ p, s.var.params = some p → arg ≠ 4 * p.nk → exec (.expandKey arg) s = .next { s with err := 3 }) ∧
    (∀ p, s.var.params = some p → arg = 4 * p.nk → ∃ ks : Vector Word 60,
      exec (.expandKey arg) s = .next { s with ks := ks, ksv := true, err := 0 } ∧
      ∀ (i : Nat) (h : i < 60), ks[i] =
        if i < 4 * (p.nr + 1) then (keyExpansion (s.din.toList.take (4 * p.nk)) p).getD i Word.zero else s.ks[i]) ∧
    (arg ≤ 65535 → (encode (.expandKey arg)).toNat = arg * 65536 + 2)

/-- R163, R166: ENCRYPT_BLOCK checks the variant, the length and KSV in that order; if all hold, DOUT takes Cipher's result on DIN[0..15], the
trace its events if there is a trace port, and ERR becomes 0. In each case nothing else changes. -/
def Obligations.EncryptBlockRunsCipher : Prop :=
  ∀ (arg : Nat) (s : State),
    (s.var = .none → exec (.encryptBlock arg) s = .next { s with err := 2 }) ∧
    (s.var ≠ .none → arg ≠ 16 → exec (.encryptBlock arg) s = .next { s with err := 4 }) ∧
    (s.var ≠ .none → arg = 16 → s.ksv = false → exec (.encryptBlock arg) s = .next { s with err := 5 }) ∧
    (∀ p, s.var.params = some p → arg = 16 → s.ksv = true → ∃ input : Block,
      (∀ (k : Nat) (h : k < 16), input[k] = s.din[k]) ∧
      exec (.encryptBlock arg) s = .next
        { s with
          dout := (cipher s.ks p.nr input).block
          trace := if s.cfg.tracePresent then s.trace ++ (cipher s.ks p.nr input).events else s.trace
          err := 0 }) ∧
    (arg ≤ 65535 → (encode (.encryptBlock arg)).toNat = arg * 65536 + 3)

/-- R167, R169: DECRYPT_BLOCK, with InvCipher, in the same way. -/
def Obligations.DecryptBlockRunsInvCipher : Prop :=
  ∀ (arg : Nat) (s : State),
    (s.var = .none → exec (.decryptBlock arg) s = .next { s with err := 2 }) ∧
    (s.var ≠ .none → arg ≠ 16 → exec (.decryptBlock arg) s = .next { s with err := 4 }) ∧
    (s.var ≠ .none → arg = 16 → s.ksv = false → exec (.decryptBlock arg) s = .next { s with err := 5 }) ∧
    (∀ p, s.var.params = some p → arg = 16 → s.ksv = true → ∃ input : Block,
      (∀ (k : Nat) (h : k < 16), input[k] = s.din[k]) ∧
      exec (.decryptBlock arg) s = .next
        { s with
          dout := (invCipher s.ks p.nr input).block
          trace := if s.cfg.tracePresent then s.trace ++ (invCipher s.ks p.nr input).events else s.trace
          err := 0 }) ∧
    (arg ≤ 65535 → (encode (.decryptBlock arg)).toNat = arg * 65536 + 4)

/-- Every command ends in a next state, which differs from the one before at most in ERR, VAR, KSV, KS, DOUT and the trace (10_state.md
sections 3 and 4, 60_exceptions.md section 2); ERR then holds a code from 0 to 5. -/
def Obligations.CommandsAlwaysComplete : Prop :=
  ∀ (i : Instr) (s : State), ∃ t, exec i s = .next t ∧ t.err.toNat ≤ 5 ∧
    t = { s with err := t.err, var := t.var, ksv := t.ksv, ks := t.ks, dout := t.dout, trace := t.trace }

/-- What the host reads is the frame of a command: after an error every register but STATUS reads as before; after CONSTRUCT and EXPAND_KEY
every register but STATUS and KS; after a block command every register but STATUS and DOUT (10_state.md section 4). -/
def Obligations.CommandWindowFrame : Prop :=
  ∀ (i : Instr) (s t : State) (off : Nat), exec i s = .next t → off % 4 = 0 → off ≠ 0x004 →
    (t.err ≠ 0 → memRead t off = memRead s off) ∧
    (∀ arg, i = .construct arg ∨ i = .expandKey arg → ¬(0x100 ≤ off ∧ off < 0x1F0) → memRead t off = memRead s off) ∧
    (∀ arg, i = .encryptBlock arg ∨ i = .decryptBlock arg → ¬(0x030 ≤ off ∧ off < 0x040) → memRead t off = memRead s off)

/-- A command given twice (20_memory.md section 3, derived by the spec): CONSTRUCT and EXPAND_KEY change nothing the second time; a block
command gives the same DOUT and ERR. -/
def Obligations.RepeatedCommandSameResult : Prop :=
  ∀ (arg : Nat) (s t : State),
    (exec (.construct arg) s = .next t → exec (.construct arg) t = .next t) ∧
    (exec (.expandKey arg) s = .next t → exec (.expandKey arg) t = .next t) ∧
    (exec (.encryptBlock arg) s = .next t → ∃ u, exec (.encryptBlock arg) t = .next u ∧ u = { t with trace := u.trace }) ∧
    (exec (.decryptBlock arg) s = .next t → ∃ u, exec (.decryptBlock arg) t = .next u ∧ u = { t with trace := u.trace })

/-- DIN bytes beyond those a command uses do not matter (93_implementation_defined.md I14): the block commands use DIN[0..15], EXPAND_KEY
DIN[0..4·Nk-1]. -/
def Obligations.UnusedInputIgnored : Prop :=
  ∀ (s t : State) (d : Vector Byte 32) (arg : Nat),
    ((∀ (k : Nat) (h : k < 32), k < 16 → d[k] = s.din[k]) →
      (exec (.encryptBlock arg) s = .next t → exec (.encryptBlock arg) { s with din := d } = .next { t with din := d }) ∧
      (exec (.decryptBlock arg) s = .next t → exec (.decryptBlock arg) { s with din := d } = .next { t with din := d })) ∧
    (∀ p, s.var.params = some p → (∀ (k : Nat) (h : k < 32), k < 4 * p.nk → d[k] = s.din[k]) →
      exec (.expandKey arg) s = .next t → exec (.expandKey arg) { s with din := d } = .next { t with din := d })

/-! ## Errors -/

/-- R203: a command that raises an error writes its code to ERR and nothing else. -/
def Obligations.FailedCommandOnlySetsErr : Prop :=
  ∀ (v : Bits32) (s t : State), execute v s = .next t → t.err ≠ 0 →
    t = { s with err := t.err } ∧ (t.err = 1 ∨ t.err = 2 ∨ t.err = 3 ∨ t.err = 4 ∨ t.err = 5)

/-- R210: of several error conditions the first in the table's order is reported. -/
def Obligations.ErrorPriorityOrder : Prop :=
  ∀ (v : Bits32) (s : State), ∃ t, execute v s = .next t ∧
    t.err =
      if v.toNat / 16 % 4096 ≠ 0 ∨ v.toNat % 16 = 0 ∨ 5 ≤ v.toNat % 16 then 1
      else if v.toNat % 16 = 1 ∧ v.toNat / 65536 ≠ 128 ∧ v.toNat / 65536 ≠ 192 ∧ v.toNat / 65536 ≠ 256 then 2
      else if v.toNat % 16 ≠ 1 ∧ s.var = .none then 2
      else if v.toNat % 16 = 2 ∧ s.var.params.map (fun p => 4 * p.nk) ≠ some (v.toNat / 65536) then 3
      else if (v.toNat % 16 = 3 ∨ v.toNat % 16 = 4) ∧ v.toNat / 65536 ≠ 16 then 4
      else if (v.toNat % 16 = 3 ∨ v.toNat % 16 = 4) ∧ s.ksv = false then 5
      else 0

/-- Every command overwrites ERR, whatever it held; no other host write, and no step at all but one that takes a write at CMD or a reset,
changes it (60_exceptions.md section 2; reset clears it, 10_state.md section 7; that a step takes the oldest pending access is the model's:
log 4). -/
def Obligations.ErrReportsLastCommandOnly : Prop :=
  (∀ (v : Bits32) (s : State) (e : BitVec 4), execute v { s with err := e } = execute v s) ∧
  (∀ (off : Nat) (v : Bits32) (s t : State), off ≠ 0 → memWrite off v s = .next t → t.err = s.err) ∧
  (∀ s t : State, step s = .next t → (∀ v rest, s.inbox ≠ .write s.cfg.engineBase 4 v :: rest) →
    (∀ rest, s.inbox ≠ .reset :: rest) → t.err = s.err)

/-! ## GF(2^8), the tables, the words -/

/-- The laws of `gmul`: commutative, distributive, identity, zero, associative, unique inverses (40_galois_field.md section 1; the last two
are the spec's derivation). -/
def Obligations.GmulFieldLaws : Prop :=
  ∀ a b c : Byte,
    gmul a b = gmul b a ∧ gmul a (b ^^^ c) = gmul a b ^^^ gmul a c ∧ gmul a 1 = a ∧ gmul a 0 = 0 ∧
    gmul (gmul a b) c = gmul a (gmul b c) ∧
    (a ≠ 0 → ∃ b', gmul a b' = 1 ∧ ∀ b'', gmul a b'' = 1 → b'' = b')

/-- Doubling as a number, and the constant products of MixColumns from it (40_galois_field.md section 1; derived by the spec). -/
def Obligations.XtimeAndConstantProducts : Prop :=
  ∀ x : Byte,
    xtime x = gmul x 2 ∧
    (xtime x).toNat = (if x.toNat < 128 then 2 * x.toNat else (2 * x.toNat - 256) ^^^ 0x1B) ∧
    gmul x 0x03 = xtime x ^^^ x ∧
    gmul x 0x09 = xtime (xtime (xtime x)) ^^^ x ∧
    gmul x 0x0B = xtime (xtime (xtime x)) ^^^ xtime x ^^^ x ∧
    gmul x 0x0D = xtime (xtime (xtime x)) ^^^ xtime (xtime x) ^^^ x ∧
    gmul x 0x0E = xtime (xtime (xtime x)) ^^^ xtime (xtime x) ^^^ xtime x

/-- The round constants: the seed, the doubling, the fourteen values (40_galois_field.md section 1). -/
def Obligations.RoundConstantTable : Prop :=
  rcon 1 = 0x01 ∧ (∀ j, 1 ≤ j → j ≤ 13 → rcon (j + 1) = xtime (rcon j)) ∧
  (List.range 14).map (fun j => rcon (j + 1)) =
    [0x01, 0x02, 0x04, 0x08, 0x10, 0x20, 0x40, 0x80, 0x1B, 0x36, 0x6C, 0xD8, 0xAB, 0x4D]

/-- R110: the two tables are bijections and inverse to one another. -/
def Obligations.SubstitutionTablesInverse : Prop :=
  (∀ x : Byte, invSbox (sbox x) = x ∧ sbox (invSbox x) = x) ∧
  (∀ x y : Byte, sbox x = sbox y → x = y) ∧ (∀ y : Byte, ∃ x, sbox x = y)

/-- R113: the forward table is the affine map of the multiplicative inverse, the inverse table its inverse. -/
def Obligations.SubstitutionConstruction : Prop :=
  gfInv 0 = 0 ∧
  (∀ x : Byte, x ≠ 0 → gmul x (gfInv x) = 1 ∧ ∀ b, gmul x b = 1 → b = gfInv x) ∧
  (∀ x : Byte, sbox x = gfInv x ^^^ (gfInv x).rotateLeft 1 ^^^ (gfInv x).rotateLeft 2 ^^^ (gfInv x).rotateLeft 3 ^^^
    (gfInv x).rotateLeft 4 ^^^ 0x63) ∧
  (∀ x y : Byte, invSbox y = x ↔ sbox x = y)

/-- R121, R122, R123: the word functions of key expansion, and the numbering of a Word's bytes that they are written in. -/
def Obligations.WordFunctions : Prop :=
  ∀ (a0 a1 a2 a3 b0 b1 b2 b3 : Byte) (j : Nat),
    (byteOf ⟨a0, a1, a2, a3⟩ 0 = a0 ∧ byteOf ⟨a0, a1, a2, a3⟩ 1 = a1 ∧ byteOf ⟨a0, a1, a2, a3⟩ 2 = a2 ∧
      byteOf ⟨a0, a1, a2, a3⟩ 3 = a3) ∧
    rotWord ⟨a0, a1, a2, a3⟩ = ⟨a1, a2, a3, a0⟩ ∧
    subWord ⟨a0, a1, a2, a3⟩ = ⟨sbox a0, sbox a1, sbox a2, sbox a3⟩ ∧
    wordXor ⟨a0, a1, a2, a3⟩ ⟨b0, b1, b2, b3⟩ = ⟨a0 ^^^ b0, a1 ^^^ b1, a2 ^^^ b2, a3 ^^^ b3⟩ ∧
    rconWord j = ⟨rcon j, 0x00, 0x00, 0x00⟩

/-- R124, R125: the expansion of a key has Nb·(Nr+1) words, the first Nk are the raw key, and each further one is made from w[i-1] and
w[i-Nk] by the branch that i selects. -/
def Obligations.KeyExpansionRecurrence : Prop :=
  ∀ (v : Variant) (p : Params) (key : List Byte), v.params = some p → key.length = 4 * p.nk →
    (keyExpansion key p).length = 4 * (p.nr + 1) ∧
    (∀ i j, i < p.nk → j < 4 → byteOf ((keyExpansion key p).getD i Word.zero) j = key.getD (4 * i + j) 0) ∧
    (∀ i, p.nk ≤ i → i < 4 * (p.nr + 1) →
      (keyExpansion key p).getD i Word.zero =
        wordXor ((keyExpansion key p).getD (i - p.nk) Word.zero)
          (if i % p.nk = 0 then
            wordXor (subWord (rotWord ((keyExpansion key p).getD (i - 1) Word.zero))) ⟨rcon (i / p.nk), 0x00, 0x00, 0x00⟩
          else if 6 < p.nk ∧ i % p.nk = 4 then subWord ((keyExpansion key p).getD (i - 1) Word.zero)
          else (keyExpansion key p).getD (i - 1) Word.zero))

/-- No index outside a table is formed, so the values the model's total functions give there are never used (log 8; 42_key_schedule.md
section 2 and 40_galois_field.md section 2, derived by the spec). -/
def Obligations.ScheduleIndicesInRange : Prop :=
  ∀ (v : Variant) (p : Params), v.params = some p →
    (∀ i, p.nk ≤ i → i < 4 * (p.nr + 1) → i % p.nk = 0 → 1 ≤ i / p.nk ∧ i / p.nk ≤ 10) ∧
    (∀ r c, r ≤ p.nr → c < 4 → 4 * r + c < v.kslen) ∧ v.kslen ≤ 60 ∧ 4 * p.nk ≤ 32

/-! ## The round primitives -/

/-- R141: AddRoundKey meets S[4c+j] with byte j of KS[4r+c], and undoes itself. -/
def Obligations.AddRoundKeyFormula : Prop :=
  ∀ (S K : Block) (ks : Vector Word 60) (r : Nat) (hr : r ≤ 14),
    (∀ (c j : Nat) (hc : c < 4) (hj : j < 4),
      (addRoundKey S (roundKey ks r))[4 * c + j] = S[4 * c + j] ^^^ byteOf ks[4 * r + c] j) ∧
    addRoundKey (addRoundKey S K) K = S

/-- SubBytes and InvSubBytes act byte by byte (43_round_transform.md section 3), and undo one another, which the spec derives. -/
def Obligations.SubBytesFormula : Prop :=
  ∀ S : Block,
    (∀ (k : Nat) (h : k < 16), (subBytes S)[k] = sbox S[k] ∧ (invSubBytes S)[k] = invSbox S[k]) ∧
    invSubBytes (subBytes S) = S ∧ subBytes (invSubBytes S) = S

/-- Row r is rotated left, or right, by r positions, and InvShiftRows undoes ShiftRows (43_round_transform.md section 4); the spec derives
the reverse composition and that four ShiftRows are the identity. -/
def Obligations.ShiftRowsFormula : Prop :=
  ∀ S : Block,
    (∀ (r c : Nat) (hr : r < 4) (hc : c < 4),
      (shiftRows S)[4 * c + r] = S[4 * ((c + r) % 4) + r] ∧
      (invShiftRows S)[4 * c + r] = S[4 * ((c + 4 - r) % 4) + r]) ∧
    invShiftRows (shiftRows S) = S ∧ shiftRows (invShiftRows S) = S ∧
    shiftRows (shiftRows (shiftRows (shiftRows S))) = S

/-- The four equations of MixColumns in every column (43_round_transform.md section 5); a column of four equal bytes stays as it is, which
the spec derives. -/
def Obligations.MixColumnsEquations : Prop :=
  ∀ (S : Block) (c : Nat) (hc : c < 4),
    (mixColumns S)[4 * c] = gmul 2 S[4 * c] ^^^ gmul 3 S[4 * c + 1] ^^^ S[4 * c + 2] ^^^ S[4 * c + 3] ∧
    (mixColumns S)[4 * c + 1] = S[4 * c] ^^^ gmul 2 S[4 * c + 1] ^^^ gmul 3 S[4 * c + 2] ^^^ S[4 * c + 3] ∧
    (mixColumns S)[4 * c + 2] = S[4 * c] ^^^ S[4 * c + 1] ^^^ gmul 2 S[4 * c + 2] ^^^ gmul 3 S[4 * c + 3] ∧
    (mixColumns S)[4 * c + 3] = gmul 3 S[4 * c] ^^^ S[4 * c + 1] ^^^ S[4 * c + 2] ^^^ gmul 2 S[4 * c + 3] ∧
    (∀ x : Byte, mixColumn ⟨x, x, x, x⟩ = ⟨x, x, x, x⟩)

/-- The four equations of InvMixColumns in every column; it undoes MixColumns (43_round_transform.md section 5), and MixColumns it, which
the spec derives. -/
def Obligations.InvMixColumnsEquations : Prop :=
  ∀ S : Block,
    (∀ (c : Nat) (hc : c < 4),
      (invMixColumns S)[4 * c] =
        gmul 0x0e S[4 * c] ^^^ gmul 0x0b S[4 * c + 1] ^^^ gmul 0x0d S[4 * c + 2] ^^^ gmul 0x09 S[4 * c + 3] ∧
      (invMixColumns S)[4 * c + 1] =
        gmul 0x09 S[4 * c] ^^^ gmul 0x0e S[4 * c + 1] ^^^ gmul 0x0b S[4 * c + 2] ^^^ gmul 0x0d S[4 * c + 3] ∧
      (invMixColumns S)[4 * c + 2] =
        gmul 0x0d S[4 * c] ^^^ gmul 0x09 S[4 * c + 1] ^^^ gmul 0x0e S[4 * c + 2] ^^^ gmul 0x0b S[4 * c + 3] ∧
      (invMixColumns S)[4 * c + 3] =
        gmul 0x0b S[4 * c] ^^^ gmul 0x0d S[4 * c + 1] ^^^ gmul 0x09 S[4 * c + 2] ^^^ gmul 0x0e S[4 * c + 3]) ∧
    invMixColumns (mixColumns S) = S ∧ mixColumns (invMixColumns S) = S

/-- R148: each is multiplication of the column's polynomial by a fixed one modulo x^4+1, with the coefficients, here from x^0 up, {02}, {01},
{01}, {03} and {0e}, {09}, {0d}, {0b}. -/
def Obligations.MixColumnsPolynomial : Prop :=
  ∀ (c : Word) (i : Nat), i < 4 →
    byteOf (mixColumn c) i =
      gmul 0x02 (byteOf c i) ^^^ gmul 0x01 (byteOf c ((i + 3) % 4)) ^^^ gmul 0x01 (byteOf c ((i + 2) % 4)) ^^^
        gmul 0x03 (byteOf c ((i + 1) % 4)) ∧
    byteOf (invMixColumn c) i =
      gmul 0x0e (byteOf c i) ^^^ gmul 0x09 (byteOf c ((i + 3) % 4)) ^^^ gmul 0x0d (byteOf c ((i + 2) % 4)) ^^^
        gmul 0x0b (byteOf c ((i + 1) % 4))

/-! ## The block engine -/

/-- R164: the states Cipher goes through, one per event k = 0 .. Nr, and its result, the last of them. -/
def Obligations.CipherRoundSequence : Prop :=
  ∀ (ks : Vector Word 60) (nr : Nat) (input : Block), 1 ≤ nr → ∃ S : Nat → Block,
    S 0 = addRoundKey input (roundKey ks 0) ∧
    (∀ k, 1 ≤ k → k < nr → S k = addRoundKey (mixColumns (shiftRows (subBytes (S (k - 1))))) (roundKey ks k)) ∧
    S nr = addRoundKey (shiftRows (subBytes (S (nr - 1)))) (roundKey ks nr) ∧
    (cipher ks nr input).block = S nr ∧
    (cipher ks nr input).events = (List.range (nr + 1)).map fun k => ⟨.enc, k, S k⟩

/-- R168: the states InvCipher goes through, with the round keys in descending order and AddRoundKey before InvMixColumns. -/
def Obligations.InvCipherRoundSequence : Prop :=
  ∀ (ks : Vector Word 60) (nr : Nat) (input : Block), 1 ≤ nr → ∃ S : Nat → Block,
    S 0 = addRoundKey input (roundKey ks nr) ∧
    (∀ k, 1 ≤ k → k < nr →
      S k = invMixColumns (addRoundKey (invSubBytes (invShiftRows (S (k - 1)))) (roundKey ks (nr - k)))) ∧
    S nr = addRoundKey (invSubBytes (invShiftRows (S (nr - 1)))) (roundKey ks 0) ∧
    (invCipher ks nr input).block = S nr ∧
    (invCipher ks nr input).events = (List.range (nr + 1)).map fun k => ⟨.dec, k, S k⟩

/-- InvCipher undoes Cipher, and Cipher InvCipher, for every schedule and number of rounds (44_block_engine.md section 3, derived by the
spec). -/
def Obligations.CipherAndInvCipherInverse : Prop :=
  ∀ (ks : Vector Word 60) (nr : Nat) (B : Block),
    (invCipher ks nr (cipher ks nr B).block).block = B ∧ (cipher ks nr (invCipher ks nr B).block).block = B

/-- Decrypting what ENCRYPT_BLOCK delivered, under the same variant and schedule, gives the block back, and the other way round
(44_block_engine.md section 3). -/
def Obligations.DecryptUndoesEncrypt : Prop :=
  ∀ s t u : State, t.err = 0 → u.var = t.var → u.ksv = t.ksv → u.ks = t.ks →
    (∀ (k : Nat) (h : k < 16), u.din[k] = t.dout[k]) →
    (exec (.encryptBlock 16) s = .next t →
      ∃ u', exec (.decryptBlock 16) u = .next u' ∧ u'.err = 0 ∧ ∀ (k : Nat) (h : k < 16), u'.dout[k] = s.din[k]) ∧
    (exec (.decryptBlock 16) s = .next t →
      ∃ u', exec (.encryptBlock 16) u = .next u' ∧ u'.err = 0 ∧ ∀ (k : Nat) (h : k < 16), u'.dout[k] = s.din[k])

/-- A successful block command emits exactly Nr+1 events, numbered in ascending order, the last of them its DOUT; a failed one, and one
without a trace port, none (44_block_engine.md section 5, derived by the spec). -/
def Obligations.TraceEventsOfBlockCommands : Prop :=
  ∀ (s t : State) (arg : Nat) (i : Instr) (d : Dir),
    (i = .encryptBlock arg ∧ d = .enc ∨ i = .decryptBlock arg ∧ d = .dec) → exec i s = .next t →
      (t.err ≠ 0 → t.trace = s.trace) ∧
      (s.cfg.tracePresent = false → t.trace = s.trace) ∧
      (t.err = 0 → s.cfg.tracePresent = true → ∃ (p : Params) (es : List TraceEvent),
        s.var.params = some p ∧ t.trace = s.trace ++ es ∧ es.length = p.nr + 1 ∧
        (∀ (k : Nat) (e : TraceEvent), es[k]? = some e → e.dir = d ∧ e.k = k) ∧ es.getLast?.map TraceEvent.block = some t.dout)

/-- R177: whether there is a trace port, and what it has output, changes nothing else, in any step; EXPAND_KEY and CONSTRUCT emit no events. -/
def Obligations.TracePortNeverChangesState : Prop :=
  (∀ s t : State, TraceBlindEq s t → OutcomeRel TraceBlindEq (step s) (step t)) ∧
  (∀ (arg : Nat) (s t : State), exec (.construct arg) s = .next t ∨ exec (.expandKey arg) s = .next t → t.trace = s.trace)

/-! ## The register window -/

/-- An admitted host read returns the register's value and changes no state of the engine; the value of each register, KS behind
its gate (20_memory.md section 3, 10_state.md section 4). That what is read is appended to `reads` is the model's own (log 4). -/
def Obligations.HostReadReturnsRegister : Prop :=
  ∀ s : State,
    (∀ (off : Nat) (rest : List HostAccess), off < 0x200 → off % 4 = 0 → (s.busy = true → off = 4) →
      s.inbox = .read (s.cfg.engineBase + off) 4 :: rest →
      step s = .next { s with inbox := rest, reads := s.reads ++ [memRead s off] }) ∧
    memRead s 0x000 = 0 ∧
    (memRead s 0x004).toNat =
      s.ksv.toNat * 2 ^ 20 + s.var.code.toNat * 2 ^ 16 + s.busy.toNat * 2 ^ 8 + s.err.toNat ∧
    (∀ (j : Nat) (h : j < 8), (memRead s (0x010 + 4 * j)).toNat =
      s.din[4 * j].toNat * 2 ^ 24 + s.din[4 * j + 1].toNat * 2 ^ 16 + s.din[4 * j + 2].toNat * 2 ^ 8 + s.din[4 * j + 3].toNat) ∧
    (∀ (j : Nat) (h : j < 4), (memRead s (0x030 + 4 * j)).toNat =
      s.dout[4 * j].toNat * 2 ^ 24 + s.dout[4 * j + 1].toNat * 2 ^ 16 + s.dout[4 * j + 2].toNat * 2 ^ 8 +
        s.dout[4 * j + 3].toNat) ∧
    (∀ (i : Nat) (h : i < 60), (memRead s (0x100 + 4 * i)).toNat =
      if s.ksv = true ∧ i < s.var.kslen then
        s.ks[i].a0.toNat * 2 ^ 24 + s.ks[i].a1.toNat * 2 ^ 16 + s.ks[i].a2.toNat * 2 ^ 8 + s.ks[i].a3.toNat
      else 0) ∧
    (∀ off, off % 4 = 0 → (8 ≤ off ∧ off < 0x010 ∨ 0x040 ≤ off ∧ off < 0x100 ∨ 0x1F0 ≤ off ∧ off < 0x200) → memRead s off = 0)

/-- R24: the layout of STATUS, with the codes of VAR from the table of R25; every other bit reads 0; a host write to it is ignored. -/
def Obligations.StatusLayout : Prop :=
  ∀ s : State,
    (memRead s 0x004).extractLsb' 0 4 = s.err ∧
    (memRead s 0x004).getLsbD 8 = s.busy ∧
    (memRead s 0x004).extractLsb' 16 2 = s.var.code ∧
    (Variant.none.code = 0b00 ∧ Variant.aes128.code = 0b01 ∧ Variant.aes192.code = 0b10 ∧ Variant.aes256.code = 0b11) ∧
    (memRead s 0x004).getLsbD 20 = s.ksv ∧
    (∀ b, (4 ≤ b ∧ b ≤ 7 ∨ 9 ≤ b ∧ b ≤ 15 ∨ 18 ≤ b ∧ b ≤ 19 ∨ 21 ≤ b ∧ b ≤ 31) → (memRead s 0x004).getLsbD b = false) ∧
    (∀ v, memWrite 0x004 v s = .next s) ∧
    (∀ c : Config, memRead (State.resetOf c) 0x004 = 0)

/-- An admitted host write runs the command word at CMD, stores its four bytes, most significant first, in DIN, and has no effect at any
other offset (20_memory.md section 3); while BUSY = 1 it is not admitted (the named fault is the model's: log 6). -/
def Obligations.HostWriteEffects : Prop :=
  ∀ (s : State) (off : Nat) (v : Bits32) (rest : List HostAccess), off < 0x200 → off % 4 = 0 →
    s.inbox = .write (s.cfg.engineBase + off) 4 v :: rest →
    (s.busy = true → step s = .fault .accessWhileBusy) ∧
    (s.busy = false →
      (off = 0 → step s = execute v { s with inbox := rest }) ∧
      (∀ j, j < 8 → off = 0x010 + 4 * j → ∃ din : Vector Byte 32,
        step s = .next { s with inbox := rest, din := din } ∧
        ∀ (k : Nat) (h : k < 32), din[k].toNat =
          if k / 4 = j then v.toNat / 2 ^ (24 - 8 * (k % 4)) % 256 else s.din[k].toNat) ∧
      (off ≠ 0 → (off < 0x010 ∨ 0x030 ≤ off) → step s = .next { s with inbox := rest }))

/-- What is written to a DIN register is read back from it, and every other register reads as before (20_memory.md sections 2 and 3). -/
def Obligations.DinWriteThenRead : Prop :=
  ∀ (s : State) (j : Nat) (v : Bits32), j < 8 → ∃ t, memWrite (0x010 + 4 * j) v s = .next t ∧
    memRead t (0x010 + 4 * j) = v ∧ ∀ off, off % 4 = 0 → off ≠ 0x010 + 4 * j → memRead t off = memRead s off

/-- A host access of another width, or at an offset that is not a multiple of 4, has no step (20_memory.md section 3). The fault's name, and
that it is this one when BUSY = 1 too, are the model's (log 6). -/
def Obligations.UnadmittedAccessStuck : Prop :=
  ∀ (s : State) (addr width : Nat) (v : Bits32) (rest : List HostAccess),
    s.cfg.engineBase ≤ addr → addr < s.cfg.engineBase + 0x200 →
    (width ≠ 4 ∨ (addr - s.cfg.engineBase) % 4 ≠ 0) →
    (s.inbox = .read addr width :: rest ∨ s.inbox = .write addr width v :: rest) →
    step s = .fault .unadmittedAccess

/-- While BUSY = 1 the only host access with a step is a read of STATUS (70_reset_and_hazards.md section 3; the fault's name is the model's:
log 6). -/
def Obligations.BusyAdmitsOnlyStatusReads : Prop :=
  ∀ (s : State) (off : Nat) (v : Bits32) (rest : List HostAccess),
    s.busy = true → off < 0x200 → off % 4 = 0 →
    (s.inbox = .write (s.cfg.engineBase + off) 4 v :: rest → step s = .fault .accessWhileBusy) ∧
    (s.inbox = .read (s.cfg.engineBase + off) 4 :: rest → off ≠ 4 → step s = .fault .accessWhileBusy) ∧
    (s.inbox = .read (s.cfg.engineBase + off) 4 :: rest → off = 4 →
      ∃ v, v.getLsbD 8 = true ∧ step s = .next { s with inbox := rest, reads := s.reads ++ [v] })

/-- R55: the base is a multiple of 0x200, and each is the base for some parameter; an address selects the engine, at its distance from the base, when it lies in the 0x200 bytes
from the base on. -/
def Obligations.WindowSelection : Prop :=
  ∀ (c : Config) (a off : Nat),
    c.engineBase % 0x200 = 0 ∧ (∀ b, b % 0x200 = 0 → ∃ c' : Config, c'.engineBase = b) ∧
    (windowOffset c a = some off ↔ (c.engineBase ≤ a ∧ a < c.engineBase + 0x200) ∧ off = a - c.engineBase)

/-- A step completes exactly when nothing is pending or the oldest access is one that the spec admits (20_memory.md section 3,
70_reset_and_hazards.md section 3; that the engine takes its accesses from a list is the model's: log 4). -/
def Obligations.StepCompletesIffAllowed : Prop :=
  ∀ s : State, (∃ t, step s = .next t) ↔ s.inbox = [] ∨ ∃ a rest, s.inbox = a :: rest ∧ accessAllowed s a

/-- With no access pending the engine holds its state (60_exceptions.md section 5); that there is such a step, and that it changes nothing,
is the model's (log 4). -/
def Obligations.IdleEngineHoldsState : Prop :=
  ∀ s : State, s.inbox = [] → step s = .next s

/-! ## Reset -/

/-- R39, R230: reset gives every piece of state its value, in the state after power-on and on a reset access at any time, BUSY or not; no
KS word is readable then. -/
def Obligations.ResetValues : Prop :=
  (∀ c : Config, ∃ t, t = State.resetOf c ∧ t.err = 0 ∧ t.busy = false ∧ t.var = .none ∧ t.ksv = false ∧
    (∀ (k : Nat) (h : k < 32), t.din[k] = 0) ∧ (∀ (k : Nat) (h : k < 16), t.dout[k] = 0) ∧ t.trace = [] ∧
    ∀ i, i < 60 → memRead t (0x100 + 4 * i) = 0) ∧
  (∀ (s : State) (rest : List HostAccess), s.inbox = .reset :: rest → ∃ t, step s = .next t ∧
    t.err = 0 ∧ t.busy = false ∧ t.var = .none ∧ t.ksv = false ∧
    (∀ (k : Nat) (h : k < 32), t.din[k] = 0) ∧ (∀ (k : Nat) (h : k < 16), t.dout[k] = 0) ∧ t.trace = [] ∧
    ∀ i, i < 60 → memRead t (0x100 + 4 * i) = 0)

/-! ## The whole machine -/

/-- The invariant holds after reset, for every parameter. -/
def Obligations.ResetMeetsInvariant : Prop :=
  (∀ c : Config, Inv (State.resetOf c)) ∧ Inv State.reset

/-- Every step keeps the invariant: BUSY = 0 between commands, ERR a legal code, KS a schedule of some raw key for the configured variant
while KSV = 1, no trace without a trace port (10_state.md sections 3, 4 and 6). -/
def Obligations.StepKeepsInvariant : Prop :=
  ∀ s t : State, Inv s → step s = .next t → Inv t

/-- KS words behind the gate are "never visible, whatever they hold": two states that differ only in them read the same at every offset,
and after a step are again such states, or stop for the same reason (10_state.md section 4). -/
def Obligations.HiddenKsWordsNeverSeen : Prop :=
  (∀ s t : State, GateEq s t → ∀ off, memRead s off = memRead t off) ∧
  (∀ s t : State, GateEq s t → OutcomeRel GateEq (step s) (step t))

/-- VAR changes, and KSV is cleared, only by a successful CONSTRUCT or reset; KSV is set only by a successful EXPAND_KEY (10_state.md
section 3). -/
def Obligations.ConfigurationWriters : Prop :=
  ∀ s t : State, step s = .next t →
    (t.var ≠ s.var ∨ (s.ksv = true ∧ t.ksv = false) →
      (∃ rest, s.inbox = .reset :: rest) ∨
      ∃ v rest arg, s.inbox = .write s.cfg.engineBase 4 v :: rest ∧ decode v = .command (.construct arg) ∧
        (arg = 128 ∨ arg = 192 ∨ arg = 256)) ∧
    (s.ksv = false → t.ksv = true →
      ∃ v rest p, s.inbox = .write s.cfg.engineBase 4 v :: rest ∧ s.var.params = some p ∧
        decode v = .command (.expandKey (4 * p.nk)))

/-- DIN changes only by a host write to it, DOUT only by a successful block command, KS only by a successful EXPAND_KEY, or by reset
(10_state.md section 4). -/
def Obligations.BufferWriters : Prop :=
  ∀ s t : State, step s = .next t →
    (∃ rest, s.inbox = .reset :: rest) ∨
    ((t.din ≠ s.din → ∃ j v rest, j < 8 ∧ s.inbox = .write (s.cfg.engineBase + 0x010 + 4 * j) 4 v :: rest) ∧
     (t.dout ≠ s.dout → ∃ v rest, s.inbox = .write s.cfg.engineBase 4 v :: rest ∧ s.var ≠ .none ∧ s.ksv = true ∧
       (decode v = .command (.encryptBlock 16) ∨ decode v = .command (.decryptBlock 16))) ∧
     (t.ks ≠ s.ks → ∃ v rest p, s.inbox = .write s.cfg.engineBase 4 v :: rest ∧ s.var.params = some p ∧
       decode v = .command (.expandKey (4 * p.nk))))

/-- A step changes no parameter, takes the oldest access only, forgets nothing the host has read, and leaves BUSY as it was but for reset
(00_scope.md section 4, 20_memory.md section 4). The model's own: the fields for parameters, accesses and reads (logs 3 and 4); that a
reset keeps all three (log 12); that a command leaves BUSY (log 5). -/
def Obligations.StepKeepsParameters : Prop :=
  ∀ s t : State, step s = .next t →
    t.cfg = s.cfg ∧ t.inbox = s.inbox.tail ∧ (∃ l, t.reads = s.reads ++ l) ∧
    (t.busy = s.busy ∨ ∃ rest, s.inbox = .reset :: rest)

/-! ## Ports and host programs -/

/-- R151: byte k of a block is bits 127-8k to 120-8k of the bus, and each port computes its primitive. -/
def Obligations.PortsComputePrimitives : Prop :=
  (∀ (S : Block) (k : Nat) (h : k < 16), (busOfBlock S).extractLsb' (120 - 8 * k) 8 = S[k]) ∧
  (∀ v : BitVec 128, busOfBlock (blockOfBus v) = v) ∧
  (∀ S K : Block,
    blockOfBus (addRoundKeyPort (busOfBlock S) (busOfBlock K)) = addRoundKey S K ∧
    blockOfBus (subBytesPort 0 (busOfBlock S)) = subBytes S ∧
    blockOfBus (subBytesPort 1 (busOfBlock S)) = invSubBytes S ∧
    blockOfBus (shiftRowsPort 0 (busOfBlock S)) = shiftRows S ∧
    blockOfBus (shiftRowsPort 1 (busOfBlock S)) = invShiftRows S ∧
    blockOfBus (mixColumnsPort 0 (busOfBlock S)) = mixColumns S ∧
    blockOfBus (mixColumnsPort 1 (busOfBlock S)) = invMixColumns S)

/-- What the assembler must refuse, and nothing else of these pseudo-operations (30_encoding.md section 4). -/
def Obligations.AssemblerRefusals : Prop :=
  ∀ (line n : Nat) (bytes : List Byte),
    (expandLine line (.construct n) = none ↔ 65535 < n) ∧ (expandLine line (.expand n) = none ↔ 65535 < n) ∧
    (expandLine line (.encrypt n) = none ↔ 65535 < n) ∧ (expandLine line (.decrypt n) = none ↔ 65535 < n) ∧
    (expandLine line (.ldin bytes) = none ↔ bytes.length % 4 ≠ 0 ∨ 32 < bytes.length)

/-- A `poll` runs its loop body once, because BUSY reads 0, and changes no state of the engine (10_state.md section 3, 30_encoding.md
section 4; how a host program runs is the model's: log 14). -/
def Obligations.PollRunsOnce : Prop :=
  ∀ (h : HostState) (line : Nat), h.engine.busy = false →
    h.program[h.pos]? = some (.label (.pollOf line)) →
    h.program[h.pos + 1]? = some (.rd 0x004 .polled) →
    h.program[h.pos + 2]? = some (.bnz .polled 0x100 (.pollOf line)) →
    ∃ h1 h2 h3, hostProgramStep h = some (.next h1) ∧ hostProgramStep h1 = some (.next h2) ∧
      hostProgramStep h2 = some (.next h3) ∧ h3.pos = h.pos + 3 ∧ h3.program = h.program ∧
      h3.engine = { h.engine with reads := h.engine.reads ++ [memRead h.engine 0x004] }

/-- The expansion of each pseudo-operation, and what each operation does (30_encoding.md section 4). How labels and variables are named and
that the engine takes a host's access at once are the model's (log 14). -/
def Obligations.HostNotationMeaning : Prop :=
  (∀ (line n x i : Nat) (t : HostVar),
    let poll : List HostOp := [.label (.pollOf line), .rd 0x004 .polled, .bnz .polled 0x100 (.pollOf line)]
    expandLine line .poll = some poll ∧
    (n ≤ 65535 →
      expandLine line (.construct n) = some (.wr 0x000 (.const (BitVec.ofNat 32 (n * 65536 + 1))) :: poll) ∧
      expandLine line (.expand n) = some (.wr 0x000 (.const (BitVec.ofNat 32 (n * 65536 + 2))) :: poll) ∧
      expandLine line (.encrypt n) = some (.wr 0x000 (.const (BitVec.ofNat 32 (n * 65536 + 3))) :: poll) ∧
      expandLine line (.decrypt n) = some (.wr 0x000 (.const (BitVec.ofNat 32 (n * 65536 + 4))) :: poll)) ∧
    expandLine line (.rdout x) = some [.rd 0x030 (.named ⟨x, 0⟩), .rd 0x034 (.named ⟨x, 1⟩), .rd 0x038 (.named ⟨x, 2⟩),
      .rd 0x03C (.named ⟨x, 3⟩)] ∧
    expandLine line (.rdks i t) = some [.rd (0x100 + 4 * i) t] ∧
    expandLine line (.status t) = some [.rd 0x004 t]) ∧
  (∀ (line : Nat) (bytes : List Byte), bytes.length % 4 = 0 → bytes.length ≤ 32 → ∃ ops,
    expandLine line (.ldin bytes) = some ops ∧ ops.length = bytes.length / 4 ∧
    ∀ (j : Nat) (h : 4 * j + 3 < bytes.length), ∃ v : Bits32, ops[j]? = some (.wr (0x010 + 4 * j) (.const v)) ∧
      v.toNat = bytes[4 * j].toNat * 2 ^ 24 + bytes[4 * j + 1].toNat * 2 ^ 16 + bytes[4 * j + 2].toNat * 2 ^ 8 +
        bytes[4 * j + 3].toNat) ∧
  (∀ (h : HostState) (off : Nat) (x mask : Bits32) (t : HostVar) (l : HostLabel) (e : State),
    (∀ V, h.program[h.pos]? = some (.wr off V) → (V = .const x ∨ ∃ u, V = .var u ∧ h.vars.lookup u = some x) →
      step { h.engine with inbox := .write (h.engine.cfg.engineBase + off) 4 x :: h.engine.inbox } = .next e →
      hostProgramStep h = some (.next { h with pos := h.pos + 1, engine := e })) ∧
    (h.program[h.pos]? = some (.rd off t) →
      step { h.engine with inbox := .read (h.engine.cfg.engineBase + off) 4 :: h.engine.inbox } = .next e →
      hostProgramStep h =
        some (.next { h with pos := h.pos + 1, vars := (t, memRead h.engine off) :: h.vars, engine := e })) ∧
    (h.program[h.pos]? = some (.label l) → hostProgramStep h = some (.next { h with pos := h.pos + 1 })) ∧
    (h.program[h.pos]? = some (.bnz t mask l) → h.vars.lookup t = some x → x &&& mask = 0 →
      hostProgramStep h = some (.next { h with pos := h.pos + 1 })) ∧
    (∀ k, h.program[h.pos]? = some (.bnz t mask l) → h.vars.lookup t = some x → x &&& mask ≠ 0 →
      h.program[k]? = some (.label l) → (∀ j, j < k → h.program[j]? ≠ some (.label l)) →
      hostProgramStep h = some (.next { h with pos := k })))

/-- What the ports of the GFMUL unit, the S-box unit, the KEYEXP unit and the two engines compute (40_galois_field.md section 1,
41_substitution.md section 3, 42_key_schedule.md section 3, 44_block_engine.md section 4) is what the commands leave in KS and DOUT. -/
def Obligations.UnitPortsDriveCommands : Prop :=
  (∀ x y : Byte, gfmulPort x y = gmul x y ∧ sboxPort x 0 = sbox x ∧ sboxPort x 1 = invSbox x) ∧
  (∀ (s : State) (p : Params), s.var.params = some p →
    exec (.expandKey (4 * p.nk)) s = .next { s with ks := keyExpPort s.din p s.ks, ksv := true, err := 0 } ∧
    ∀ input : Block, (∀ (k : Nat) (h : k < 16), input[k] = s.din[k]) → s.ksv = true →
      (∃ t, exec (.encryptBlock 16) s = .next t ∧ t.err = 0 ∧ t.dout = forwardPort input s.ks p.nr) ∧
      (∃ t, exec (.decryptBlock 16) s = .next t ∧ t.err = 0 ∧ t.dout = inversePort input s.ks p.nr))
end

