-- ==== Sys2Proof/Laws/State.lean ====
section
/-! SUPPORT. One lemma per field of State and per update of it, each true by unfolding, for `simp`. -/

namespace Sys2Proof.Machine

variable (s : State)

@[simp] theorem State.raise_cfg (e : Error) : (s.raise e).cfg = s.cfg := rfl
@[simp] theorem State.raise_err (e : Error) : (s.raise e).err = e.code := rfl
@[simp] theorem State.raise_busy (e : Error) : (s.raise e).busy = s.busy := rfl
@[simp] theorem State.raise_var (e : Error) : (s.raise e).var = s.var := rfl
@[simp] theorem State.raise_ksv (e : Error) : (s.raise e).ksv = s.ksv := rfl
@[simp] theorem State.raise_din (e : Error) : (s.raise e).din = s.din := rfl
@[simp] theorem State.raise_dout (e : Error) : (s.raise e).dout = s.dout := rfl
@[simp] theorem State.raise_ks (e : Error) : (s.raise e).ks = s.ks := rfl
@[simp] theorem State.raise_trace (e : Error) : (s.raise e).trace = s.trace := rfl
@[simp] theorem State.raise_inbox (e : Error) : (s.raise e).inbox = s.inbox := rfl
@[simp] theorem State.raise_reads (e : Error) : (s.raise e).reads = s.reads := rfl
@[simp] theorem State.raise_draws (e : Error) : (s.raise e).draws = s.draws := rfl

@[simp] theorem State.succeed_cfg : (s.succeed).cfg = s.cfg := rfl
@[simp] theorem State.succeed_err : (s.succeed).err = 0 := rfl
@[simp] theorem State.succeed_busy : (s.succeed).busy = s.busy := rfl
@[simp] theorem State.succeed_var : (s.succeed).var = s.var := rfl
@[simp] theorem State.succeed_ksv : (s.succeed).ksv = s.ksv := rfl
@[simp] theorem State.succeed_din : (s.succeed).din = s.din := rfl
@[simp] theorem State.succeed_dout : (s.succeed).dout = s.dout := rfl
@[simp] theorem State.succeed_ks : (s.succeed).ks = s.ks := rfl
@[simp] theorem State.succeed_trace : (s.succeed).trace = s.trace := rfl
@[simp] theorem State.succeed_inbox : (s.succeed).inbox = s.inbox := rfl
@[simp] theorem State.succeed_reads : (s.succeed).reads = s.reads := rfl
@[simp] theorem State.succeed_draws : (s.succeed).draws = s.draws := rfl

@[simp] theorem State.configure_cfg (v : Variant) : (s.configure v).cfg = s.cfg := rfl
@[simp] theorem State.configure_err (v : Variant) : (s.configure v).err = s.err := rfl
@[simp] theorem State.configure_busy (v : Variant) : (s.configure v).busy = s.busy := rfl
@[simp] theorem State.configure_var (v : Variant) : (s.configure v).var = v := rfl
@[simp] theorem State.configure_ksv (v : Variant) : (s.configure v).ksv = false := rfl
@[simp] theorem State.configure_din (v : Variant) : (s.configure v).din = s.din := rfl
@[simp] theorem State.configure_dout (v : Variant) : (s.configure v).dout = s.dout := rfl
@[simp] theorem State.configure_ks (v : Variant) : (s.configure v).ks = s.ks := rfl
@[simp] theorem State.configure_trace (v : Variant) : (s.configure v).trace = s.trace := rfl
@[simp] theorem State.configure_inbox (v : Variant) : (s.configure v).inbox = s.inbox := rfl
@[simp] theorem State.configure_reads (v : Variant) : (s.configure v).reads = s.reads := rfl
@[simp] theorem State.configure_draws (v : Variant) : (s.configure v).draws = s.draws := rfl

@[simp] theorem State.loadSchedule_cfg (w : List Word) (n : Nat) : (s.loadSchedule w n).cfg = s.cfg := rfl
@[simp] theorem State.loadSchedule_err (w : List Word) (n : Nat) : (s.loadSchedule w n).err = s.err := rfl
@[simp] theorem State.loadSchedule_busy (w : List Word) (n : Nat) : (s.loadSchedule w n).busy = s.busy := rfl
@[simp] theorem State.loadSchedule_var (w : List Word) (n : Nat) : (s.loadSchedule w n).var = s.var := rfl
@[simp] theorem State.loadSchedule_ksv (w : List Word) (n : Nat) : (s.loadSchedule w n).ksv = true := rfl
@[simp] theorem State.loadSchedule_din (w : List Word) (n : Nat) : (s.loadSchedule w n).din = s.din := rfl
@[simp] theorem State.loadSchedule_dout (w : List Word) (n : Nat) : (s.loadSchedule w n).dout = s.dout := rfl
@[simp] theorem State.loadSchedule_ks (w : List Word) (n : Nat) : (s.loadSchedule w n).ks = storeWords w n s.ks := rfl
@[simp] theorem State.loadSchedule_trace (w : List Word) (n : Nat) : (s.loadSchedule w n).trace = s.trace := rfl
@[simp] theorem State.loadSchedule_inbox (w : List Word) (n : Nat) : (s.loadSchedule w n).inbox = s.inbox := rfl
@[simp] theorem State.loadSchedule_reads (w : List Word) (n : Nat) : (s.loadSchedule w n).reads = s.reads := rfl
@[simp] theorem State.loadSchedule_draws (w : List Word) (n : Nat) : (s.loadSchedule w n).draws = s.draws := rfl

@[simp] theorem State.deliver_cfg (r : Block) : (s.deliver r).cfg = s.cfg := rfl
@[simp] theorem State.deliver_err (r : Block) : (s.deliver r).err = s.err := rfl
@[simp] theorem State.deliver_busy (r : Block) : (s.deliver r).busy = s.busy := rfl
@[simp] theorem State.deliver_var (r : Block) : (s.deliver r).var = s.var := rfl
@[simp] theorem State.deliver_ksv (r : Block) : (s.deliver r).ksv = s.ksv := rfl
@[simp] theorem State.deliver_din (r : Block) : (s.deliver r).din = s.din := rfl
@[simp] theorem State.deliver_dout (r : Block) : (s.deliver r).dout = r := rfl
@[simp] theorem State.deliver_ks (r : Block) : (s.deliver r).ks = s.ks := rfl
@[simp] theorem State.deliver_trace (r : Block) : (s.deliver r).trace = s.trace := rfl
@[simp] theorem State.deliver_inbox (r : Block) : (s.deliver r).inbox = s.inbox := rfl
@[simp] theorem State.deliver_reads (r : Block) : (s.deliver r).reads = s.reads := rfl
@[simp] theorem State.deliver_draws (r : Block) : (s.deliver r).draws = s.draws := rfl

@[simp] theorem State.emit_cfg (es : List TraceEvent) : (s.emit es).cfg = s.cfg := rfl
@[simp] theorem State.emit_err (es : List TraceEvent) : (s.emit es).err = s.err := rfl
@[simp] theorem State.emit_busy (es : List TraceEvent) : (s.emit es).busy = s.busy := rfl
@[simp] theorem State.emit_var (es : List TraceEvent) : (s.emit es).var = s.var := rfl
@[simp] theorem State.emit_ksv (es : List TraceEvent) : (s.emit es).ksv = s.ksv := rfl
@[simp] theorem State.emit_din (es : List TraceEvent) : (s.emit es).din = s.din := rfl
@[simp] theorem State.emit_dout (es : List TraceEvent) : (s.emit es).dout = s.dout := rfl
@[simp] theorem State.emit_ks (es : List TraceEvent) : (s.emit es).ks = s.ks := rfl
@[simp] theorem State.emit_trace (es : List TraceEvent) : (s.emit es).trace = if s.cfg.tracePresent then s.trace ++ es else s.trace := rfl
@[simp] theorem State.emit_inbox (es : List TraceEvent) : (s.emit es).inbox = s.inbox := rfl
@[simp] theorem State.emit_reads (es : List TraceEvent) : (s.emit es).reads = s.reads := rfl
@[simp] theorem State.emit_draws (es : List TraceEvent) : (s.emit es).draws = s.draws := rfl

@[simp] theorem State.observe_cfg (v : Bits32) : (s.observe v).cfg = s.cfg := rfl
@[simp] theorem State.observe_err (v : Bits32) : (s.observe v).err = s.err := rfl
@[simp] theorem State.observe_busy (v : Bits32) : (s.observe v).busy = s.busy := rfl
@[simp] theorem State.observe_var (v : Bits32) : (s.observe v).var = s.var := rfl
@[simp] theorem State.observe_ksv (v : Bits32) : (s.observe v).ksv = s.ksv := rfl
@[simp] theorem State.observe_din (v : Bits32) : (s.observe v).din = s.din := rfl
@[simp] theorem State.observe_dout (v : Bits32) : (s.observe v).dout = s.dout := rfl
@[simp] theorem State.observe_ks (v : Bits32) : (s.observe v).ks = s.ks := rfl
@[simp] theorem State.observe_trace (v : Bits32) : (s.observe v).trace = s.trace := rfl
@[simp] theorem State.observe_inbox (v : Bits32) : (s.observe v).inbox = s.inbox := rfl
@[simp] theorem State.observe_reads (v : Bits32) : (s.observe v).reads = s.reads ++ [v] := rfl
@[simp] theorem State.observe_draws (v : Bits32) : (s.observe v).draws = s.draws := rfl

@[simp] theorem State.withInbox_cfg (l : List HostAccess) : (s.withInbox l).cfg = s.cfg := rfl
@[simp] theorem State.withInbox_err (l : List HostAccess) : (s.withInbox l).err = s.err := rfl
@[simp] theorem State.withInbox_busy (l : List HostAccess) : (s.withInbox l).busy = s.busy := rfl
@[simp] theorem State.withInbox_var (l : List HostAccess) : (s.withInbox l).var = s.var := rfl
@[simp] theorem State.withInbox_ksv (l : List HostAccess) : (s.withInbox l).ksv = s.ksv := rfl
@[simp] theorem State.withInbox_din (l : List HostAccess) : (s.withInbox l).din = s.din := rfl
@[simp] theorem State.withInbox_dout (l : List HostAccess) : (s.withInbox l).dout = s.dout := rfl
@[simp] theorem State.withInbox_ks (l : List HostAccess) : (s.withInbox l).ks = s.ks := rfl
@[simp] theorem State.withInbox_trace (l : List HostAccess) : (s.withInbox l).trace = s.trace := rfl
@[simp] theorem State.withInbox_inbox (l : List HostAccess) : (s.withInbox l).inbox = l := rfl
@[simp] theorem State.withInbox_reads (l : List HostAccess) : (s.withInbox l).reads = s.reads := rfl
@[simp] theorem State.withInbox_draws (l : List HostAccess) : (s.withInbox l).draws = s.draws := rfl

/-! The update of DIN leaves every other field; what it writes is `State.writeDin_din_getElem` in Laws/Ops.lean. -/

@[simp] theorem State.writeDin_cfg (j : Fin 8) (v : Bits32) : (s.writeDin j v).cfg = s.cfg := rfl
@[simp] theorem State.writeDin_err (j : Fin 8) (v : Bits32) : (s.writeDin j v).err = s.err := rfl
@[simp] theorem State.writeDin_busy (j : Fin 8) (v : Bits32) : (s.writeDin j v).busy = s.busy := rfl
@[simp] theorem State.writeDin_var (j : Fin 8) (v : Bits32) : (s.writeDin j v).var = s.var := rfl
@[simp] theorem State.writeDin_ksv (j : Fin 8) (v : Bits32) : (s.writeDin j v).ksv = s.ksv := rfl
@[simp] theorem State.writeDin_dout (j : Fin 8) (v : Bits32) : (s.writeDin j v).dout = s.dout := rfl
@[simp] theorem State.writeDin_ks (j : Fin 8) (v : Bits32) : (s.writeDin j v).ks = s.ks := rfl
@[simp] theorem State.writeDin_trace (j : Fin 8) (v : Bits32) : (s.writeDin j v).trace = s.trace := rfl
@[simp] theorem State.writeDin_inbox (j : Fin 8) (v : Bits32) : (s.writeDin j v).inbox = s.inbox := rfl
@[simp] theorem State.writeDin_reads (j : Fin 8) (v : Bits32) : (s.writeDin j v).reads = s.reads := rfl
@[simp] theorem State.writeDin_draws (j : Fin 8) (v : Bits32) : (s.writeDin j v).draws = s.draws := rfl

/-! Reset. -/

@[simp] theorem State.resetOf_cfg (c : Config) : (State.resetOf c).cfg = c := rfl
@[simp] theorem State.resetOf_err (c : Config) : (State.resetOf c).err = 0 := rfl
@[simp] theorem State.resetOf_busy (c : Config) : (State.resetOf c).busy = false := rfl
@[simp] theorem State.resetOf_var (c : Config) : (State.resetOf c).var = .none := rfl
@[simp] theorem State.resetOf_ksv (c : Config) : (State.resetOf c).ksv = false := rfl
@[simp] theorem State.resetOf_din (c : Config) : (State.resetOf c).din = Vector.replicate 32 0 := rfl
@[simp] theorem State.resetOf_dout (c : Config) : (State.resetOf c).dout = Vector.replicate 16 0 := rfl
@[simp] theorem State.resetOf_ks (c : Config) : (State.resetOf c).ks = Vector.replicate 60 Word.zero := rfl
@[simp] theorem State.resetOf_trace (c : Config) : (State.resetOf c).trace = [] := rfl
@[simp] theorem State.resetOf_inbox (c : Config) : (State.resetOf c).inbox = [] := rfl
@[simp] theorem State.resetOf_reads (c : Config) : (State.resetOf c).reads = [] := rfl
@[simp] theorem State.resetOf_draws (c : Config) : (State.resetOf c).draws = 0 := rfl

@[simp] theorem State.engineReset_cfg : s.engineReset.cfg = s.cfg := rfl
@[simp] theorem State.engineReset_err : s.engineReset.err = 0 := rfl
@[simp] theorem State.engineReset_busy : s.engineReset.busy = false := rfl
@[simp] theorem State.engineReset_var : s.engineReset.var = .none := rfl
@[simp] theorem State.engineReset_ksv : s.engineReset.ksv = false := rfl
@[simp] theorem State.engineReset_din : s.engineReset.din = Vector.replicate 32 0 := rfl
@[simp] theorem State.engineReset_dout : s.engineReset.dout = Vector.replicate 16 0 := rfl
@[simp] theorem State.engineReset_ks : s.engineReset.ks = Vector.ofFn fun i : Fin 60 => Config.freeKs s.draws i.val := rfl
@[simp] theorem State.engineReset_trace : s.engineReset.trace = [] := rfl
@[simp] theorem State.engineReset_inbox : s.engineReset.inbox = s.inbox := rfl
@[simp] theorem State.engineReset_reads : s.engineReset.reads = s.reads := rfl
@[simp] theorem State.engineReset_draws : s.engineReset.draws = s.draws + 1 := rfl

/-! What a block command writes, in one lemma per field. -/

@[simp] theorem State.finishBlock_cfg (r : BlockRun) : (s.finishBlock r).cfg = s.cfg := rfl
@[simp] theorem State.finishBlock_err (r : BlockRun) : (s.finishBlock r).err = 0 := rfl
@[simp] theorem State.finishBlock_busy (r : BlockRun) : (s.finishBlock r).busy = s.busy := rfl
@[simp] theorem State.finishBlock_var (r : BlockRun) : (s.finishBlock r).var = s.var := rfl
@[simp] theorem State.finishBlock_ksv (r : BlockRun) : (s.finishBlock r).ksv = s.ksv := rfl
@[simp] theorem State.finishBlock_din (r : BlockRun) : (s.finishBlock r).din = s.din := rfl
@[simp] theorem State.finishBlock_dout (r : BlockRun) : (s.finishBlock r).dout = r.block := rfl
@[simp] theorem State.finishBlock_ks (r : BlockRun) : (s.finishBlock r).ks = s.ks := rfl
@[simp] theorem State.finishBlock_trace (r : BlockRun) : (s.finishBlock r).trace = if s.cfg.tracePresent then s.trace ++ r.events else s.trace := rfl
@[simp] theorem State.finishBlock_inbox (r : BlockRun) : (s.finishBlock r).inbox = s.inbox := rfl
@[simp] theorem State.finishBlock_reads (r : BlockRun) : (s.finishBlock r).reads = s.reads := rfl
@[simp] theorem State.finishBlock_draws (r : BlockRun) : (s.finishBlock r).draws = s.draws := rfl

/-! Each command's effect as one update. -/

theorem State.configure_succeed_eq (v : Variant) :
    (s.configure v).succeed = { s with var := v, ksv := false, err := 0 } := rfl

theorem State.loadSchedule_succeed_eq (w : List Word) (n : Nat) :
    (s.loadSchedule w n).succeed = { s with ks := storeWords w n s.ks, ksv := true, err := 0 } := rfl

theorem State.finishBlock_eq (r : BlockRun) :
    s.finishBlock r =
      { s with dout := r.block, trace := if s.cfg.tracePresent then s.trace ++ r.events else s.trace, err := 0 } := rfl

/-! What the checks and operands of commands read is untouched by what commands write. -/

@[simp] theorem checkKey_raise (arg : Nat) (e : Error) : checkKey arg (s.raise e) = checkKey arg s := rfl
@[simp] theorem checkBlock_raise (arg : Nat) (e : Error) : checkBlock arg (s.raise e) = checkBlock arg s := rfl
@[simp] theorem checkBlock_finishBlock (arg : Nat) (r : BlockRun) : checkBlock arg (s.finishBlock r) = checkBlock arg s := rfl
@[simp] theorem State.blockIn_finishBlock (r : BlockRun) : (s.finishBlock r).blockIn = s.blockIn := rfl
@[simp] theorem State.rawKey_loadSchedule (w : List Word) (n nk : Nat) : (s.loadSchedule w n).rawKey nk = s.rawKey nk := rfl
@[simp] theorem State.blockIn_getElem (k : Nat) (h : k < 16) : s.blockIn[k] = s.din[k] := by simp [State.blockIn]

end Sys2Proof.Machine
end

