-- ==== Sys2Proof/Laws/Ops.lean ====
section
/-! SUPPORT. What each shared operation can do, said once. -/

namespace Sys2Proof.Machine

/-! ## Blocks by row and column -/

@[simp] theorem getElem_ofEntries (f : Fin 4 → Fin 4 → Byte) (k : Nat) (h : k < 16) :
    (ofEntries f)[k] = f ⟨k % 4, by omega⟩ ⟨k / 4, by omega⟩ := by
  simp [ofEntries]

@[simp] theorem entry_ofEntries (f : Fin 4 → Fin 4 → Byte) (r c : Fin 4) : entry (ofEntries f) r c = f r c := by
  unfold entry
  rw [getElem_ofEntries]
  congr 1
  · apply Fin.ext; simp
  · apply Fin.ext; simp; omega

/-- A block is the block of its entries. -/
theorem ofEntries_entry (S : Block) : ofEntries (entry S) = S := by
  ext k h
  rw [getElem_ofEntries]
  simp only [entry, show 4 * (k / 4) + k % 4 = k by omega]

/-- Two blocks with the same entries are equal. -/
theorem block_ext_entry {S T : Block} (h : ∀ r c, entry S r c = entry T r c) : S = T := by
  rw [← ofEntries_entry S, ← ofEntries_entry T]
  congr 1
  funext r c
  exact h r c

@[simp] theorem column_ofEntries (f : Fin 4 → Fin 4 → Byte) (c : Fin 4) :
    column (ofEntries f) c = ⟨f 0 c, f 1 c, f 2 c, f 3 c⟩ := by
  simp [column]

/-! ## The schedule RAM and the input buffer -/

@[simp] theorem getElem_storeWords (w : List Word) (n : Nat) (ks : Vector Word 60) (i : Nat) (h : i < 60) :
    (storeWords w n ks)[i] = if i < n then w.getD i Word.zero else ks[i] := by
  simp [storeWords]

/-- A write to DIN_j replaces bytes 4j to 4j+3, the most significant byte first, and no other. -/
theorem State.writeDin_din_getElem (s : State) (j : Fin 8) (v : Bits32) (k : Nat) (h : k < 32) :
    (s.writeDin j v).din[k] = if k / 4 = j.val then byteOf (wordOfVal v) (k % 4) else s.din[k] := by
  unfold State.writeDin
  simp only [Vector.getElem_set]
  have hj := j.isLt
  by_cases hk : k / 4 = j.val
  · have : k % 4 = 0 ∨ k % 4 = 1 ∨ k % 4 = 2 ∨ k % 4 = 3 := by omega
    rcases this with h0 | h0 | h0 | h0
    · have e : k = 4 * j.val := by omega
      subst e; simp [byteOf]
    · have e : k = 4 * j.val + 1 := by omega
      subst e; simp [byteOf, hk]
    · have e : k = 4 * j.val + 2 := by omega
      subst e; simp [byteOf, hk]
    · have e : k = 4 * j.val + 3 := by omega
      subst e; simp [byteOf, hk]
  · rw [if_neg hk, if_neg (by omega), if_neg (by omega), if_neg (by omega), if_neg (by omega)]

/-! ## Operands -/

/-- CONSTRUCT's operand names a variant exactly when it is 128, 192 or 256. -/
theorem ofKeyBits_eq_some {arg : Nat} {v : Variant} :
    Variant.ofKeyBits arg = some v ↔
      arg = 128 ∧ v = .aes128 ∨ arg = 192 ∧ v = .aes192 ∨ arg = 256 ∧ v = .aes256 := by
  unfold Variant.ofKeyBits
  split_ifs <;> subst_vars <;> simp_all [eq_comm]

/-- The parameters of a configured variant are one of the three pairs. -/
theorem params_cases {v : Variant} {p : Params} (h : v.params = some p) :
    v = .aes128 ∧ p = ⟨4, 10⟩ ∨ v = .aes192 ∧ p = ⟨6, 12⟩ ∨ v = .aes256 ∧ p = ⟨8, 14⟩ := by
  cases v <;> simp_all [Variant.params, eq_comm]

theorem kslen_eq_words {v : Variant} {p : Params} (h : v.params = some p) : v.kslen = p.words := by
  simp [Variant.kslen, h]

/-- The schedule of a configured variant fits KS. -/
theorem words_le {v : Variant} {p : Params} (h : v.params = some p) : p.words ≤ 60 := by
  rcases params_cases h with ⟨-, rfl⟩ | ⟨-, rfl⟩ | ⟨-, rfl⟩ <;> decide

/-- EXPAND_KEY passes its checks exactly when a variant is configured and the length is its key's. -/
theorem checkKey_eq_ok {arg : Nat} {s : State} {p : Params} :
    checkKey arg s = .ok p ↔ s.var.params = some p ∧ arg = 4 * p.nk := by
  unfold checkKey
  split
  · simp_all
  · split_ifs with h <;> simp_all
    rintro rfl; exact h

/-- A block command passes its checks exactly when a variant is configured, the length is 16 and a schedule is valid. -/
theorem checkBlock_eq_ok {arg : Nat} {s : State} {p : Params} :
    checkBlock arg s = .ok p ↔ s.var.params = some p ∧ arg = 16 ∧ s.ksv = true := by
  unfold checkBlock
  split
  · simp_all
  · split_ifs <;> simp_all

/-! ## The window -/

/-- An address selects the offset at which it stands in the window. -/
theorem windowOffset_eq_some {c : Config} {addr off : Nat} :
    windowOffset c addr = some off ↔ addr = c.engineBase + off ∧ off < 0x200 := by
  unfold windowOffset
  split_ifs with h
  · simp only [Option.some.injEq]; omega
  · simp only [false_iff]; omega

@[simp] theorem windowOffset_base (c : Config) : windowOffset c c.engineBase = some 0 := by
  rw [windowOffset_eq_some]; omega

@[simp] theorem regAt_cmd : regAt 0 = .cmd := rfl

theorem windowOffset_base_add (c : Config) {off : Nat} (h : off < 0x200) : windowOffset c (c.engineBase + off) = some off :=
  windowOffset_eq_some.mpr ⟨rfl, h⟩

/-- The offsets of the DIN registers. -/
theorem regAt_din {j : Nat} (h : j < 8) : regAt (0x010 + 4 * j) = .din ⟨j, h⟩ := by
  unfold regAt
  rw [if_neg (by omega), if_neg (by omega), dif_pos (by omega)]
  simp

/-- The offsets of the DOUT registers. -/
theorem regAt_dout {j : Nat} (h : j < 4) : regAt (0x030 + 4 * j) = .dout ⟨j, h⟩ := by
  unfold regAt
  rw [if_neg (by omega), if_neg (by omega), dif_neg (by omega), dif_pos (by omega)]
  simp

/-- The offsets of the KS registers. -/
theorem regAt_ks {i : Nat} (h : i < 60) : regAt (0x100 + 4 * i) = .ks ⟨i, h⟩ := by
  unfold regAt
  rw [if_neg (by omega), if_neg (by omega), dif_neg (by omega), dif_neg (by omega), dif_pos (by omega)]
  simp

/-- The reserved offsets. -/
theorem regAt_reserved {off : Nat} (h : 4 < off) (h1 : off < 0x010 ∨ 0x040 ≤ off) (h2 : off < 0x100 ∨ 0x1F0 ≤ off) :
    regAt off = .reserved := by
  unfold regAt
  rw [if_neg (by omega), if_neg (by omega), dif_neg (by omega), dif_neg (by omega), dif_neg (by omega)]

/-- The bus value of a Word as a number, `a0` most significant. -/
theorem wordVal_toNat (w : Word) :
    (wordVal w).toNat = w.a0.toNat * 2 ^ 24 + w.a1.toNat * 2 ^ 16 + w.a2.toNat * 2 ^ 8 + w.a3.toNat := by
  have h1 := w.a1.isLt
  have h2 := w.a2.isLt
  have h3 := w.a3.isLt
  unfold wordVal
  simp only [BitVec.toNat_append, Nat.shiftLeft_eq]
  rw [Nat.mul_comm (_ : Nat) (2 ^ 8), Nat.mul_comm (_ : Nat) (2 ^ 8), Nat.mul_comm (_ : Nat) (2 ^ 8),
    ← Nat.two_pow_add_eq_or_of_lt h1, ← Nat.two_pow_add_eq_or_of_lt h2, ← Nat.two_pow_add_eq_or_of_lt h3]
  omega

/-- A bus value taken apart and put together is itself. -/
@[simp] theorem wordVal_wordOfVal (v : Bits32) : wordVal (wordOfVal v) = v := by
  apply BitVec.eq_of_toNat_eq
  rw [wordVal_toNat]
  have := v.isLt
  simp only [wordOfVal, BitVec.extractLsb'_toNat, Nat.shiftRight_eq_div_pow]
  omega

theorem Error.code_ne_zero (e : Error) : e.code ≠ 0 := by cases e <;> decide

theorem Error.code_le (e : Error) : e.code.toNat ≤ 5 := by cases e <;> decide

/-- Only offset 4 is STATUS. -/
theorem regAt_eq_status {off : Nat} : regAt off = .status ↔ off = 4 := by
  unfold regAt
  split_ifs <;> simp_all

/-- Only offset 0 is CMD. -/
theorem regAt_eq_cmd {off : Nat} : regAt off = .cmd ↔ off = 0 := by
  unfold regAt
  split_ifs <;> simp_all

end Sys2Proof.Machine
end

