-- ==== Sys2Proof/Laws/Commands.lean ====
section
/-! SUPPORT. Everything a command, an access and a step can do, said once: a proof about them cites these and unfolds nothing. -/

namespace Sys2Proof.Machine

/-- CONSTRUCT either raises InvalidKeyVariant or configures the variant its operand names. -/
theorem execConstruct_cases (arg : Nat) (s : State) :
    (Variant.ofKeyBits arg = none ∧ execConstruct arg s = .next (s.raise .invalidKeyVariant)) ∨
    ∃ v, Variant.ofKeyBits arg = some v ∧ execConstruct arg s = .next (s.configure v).succeed := by
  unfold execConstruct
  cases h : Variant.ofKeyBits arg with
  | none => exact .inl ⟨rfl, rfl⟩
  | some v => exact .inr ⟨v, rfl, rfl⟩

/-- EXPAND_KEY either raises the error of its checks or loads the schedule of the key in DIN. -/
theorem execExpandKey_cases (arg : Nat) (s : State) :
    (∃ e, checkKey arg s = .error e ∧ execExpandKey arg s = .next (s.raise e)) ∨
    ∃ p, s.var.params = some p ∧ arg = 4 * p.nk ∧
      execExpandKey arg s = .next (s.loadSchedule (keyExpansion (s.rawKey p.nk) p) p.words).succeed := by
  unfold execExpandKey
  cases h : checkKey arg s with
  | error e => exact .inl ⟨e, rfl, rfl⟩
  | ok p => exact .inr ⟨p, (checkKey_eq_ok.mp h).1, (checkKey_eq_ok.mp h).2, rfl⟩

/-- ENCRYPT_BLOCK either raises the error of its checks or delivers Cipher's result. -/
theorem execEncryptBlock_cases (arg : Nat) (s : State) :
    (∃ e, checkBlock arg s = .error e ∧ execEncryptBlock arg s = .next (s.raise e)) ∨
    ∃ p, s.var.params = some p ∧ arg = 16 ∧ s.ksv = true ∧
      execEncryptBlock arg s = .next (s.finishBlock (cipher s.ks p.nr s.blockIn)) := by
  unfold execEncryptBlock
  cases h : checkBlock arg s with
  | error e => exact .inl ⟨e, rfl, rfl⟩
  | ok p =>
    obtain ⟨hp, ha, hk⟩ := checkBlock_eq_ok.mp h
    exact .inr ⟨p, hp, ha, hk, rfl⟩

/-- DECRYPT_BLOCK either raises the error of its checks or delivers InvCipher's result. -/
theorem execDecryptBlock_cases (arg : Nat) (s : State) :
    (∃ e, checkBlock arg s = .error e ∧ execDecryptBlock arg s = .next (s.raise e)) ∨
    ∃ p, s.var.params = some p ∧ arg = 16 ∧ s.ksv = true ∧
      execDecryptBlock arg s = .next (s.finishBlock (invCipher s.ks p.nr s.blockIn)) := by
  unfold execDecryptBlock
  cases h : checkBlock arg s with
  | error e => exact .inl ⟨e, rfl, rfl⟩
  | ok p =>
    obtain ⟨hp, ha, hk⟩ := checkBlock_eq_ok.mp h
    exact .inr ⟨p, hp, ha, hk, rfl⟩

/-- Everything a command can do: raise an error, or have the effect of its own kind under its own conditions. -/
theorem exec_cases (i : Instr) (s : State) :
    (∃ e, exec i s = .next (s.raise e)) ∨
    (∃ arg v, i = .construct arg ∧ Variant.ofKeyBits arg = some v ∧ exec i s = .next (s.configure v).succeed) ∨
    (∃ p, s.var.params = some p ∧ i = .expandKey (4 * p.nk) ∧
      exec i s = .next (s.loadSchedule (keyExpansion (s.rawKey p.nk) p) p.words).succeed) ∨
    (∃ p, s.var.params = some p ∧ s.ksv = true ∧ i = .encryptBlock 16 ∧
      exec i s = .next (s.finishBlock (cipher s.ks p.nr s.blockIn))) ∨
    (∃ p, s.var.params = some p ∧ s.ksv = true ∧ i = .decryptBlock 16 ∧
      exec i s = .next (s.finishBlock (invCipher s.ks p.nr s.blockIn))) := by
  cases i with
  | construct arg =>
    rcases execConstruct_cases arg s with ⟨-, h⟩ | ⟨v, hv, h⟩
    · exact .inl ⟨_, h⟩
    · exact .inr (.inl ⟨arg, v, rfl, hv, h⟩)
  | expandKey arg =>
    rcases execExpandKey_cases arg s with ⟨e, -, h⟩ | ⟨p, hp, rfl, h⟩
    · exact .inl ⟨_, h⟩
    · exact .inr (.inr (.inl ⟨p, hp, rfl, h⟩))
  | encryptBlock arg =>
    rcases execEncryptBlock_cases arg s with ⟨e, -, h⟩ | ⟨p, hp, rfl, hk, h⟩
    · exact .inl ⟨_, h⟩
    · exact .inr (.inr (.inr (.inl ⟨p, hp, hk, rfl, h⟩)))
  | decryptBlock arg =>
    rcases execDecryptBlock_cases arg s with ⟨e, -, h⟩ | ⟨p, hp, rfl, hk, h⟩
    · exact .inl ⟨_, h⟩
    · exact .inr (.inr (.inr (.inr ⟨p, hp, hk, rfl, h⟩)))

/-- A word written to CMD either raises IllegalCommand or runs the command it decodes to. -/
theorem execute_cases (v : Bits32) (s : State) :
    (∃ r, decode v = .illegal r ∧ execute v s = .next (s.raise .illegalCommand)) ∨
    ∃ i, decode v = .command i ∧ execute v s = exec i s := by
  unfold execute
  cases h : decode v with
  | illegal r => exact .inl ⟨r, rfl, rfl⟩
  | command i => exact .inr ⟨i, rfl, rfl⟩

/-- A write at an admitted offset runs a command at CMD, stores into DIN, and does nothing anywhere else. -/
theorem memWrite_cases (off : Nat) (v : Bits32) (s : State) :
    (off = 0 ∧ memWrite off v s = execute v s) ∨
    (∃ j, regAt off = .din j ∧ memWrite off v s = .next (s.writeDin j v)) ∨
    (off ≠ 0 ∧ (∀ j, regAt off ≠ .din j) ∧ memWrite off v s = .next s) := by
  unfold memWrite
  cases h : regAt off with
  | cmd => exact .inl ⟨regAt_eq_cmd.mp h, rfl⟩
  | din j => exact .inr (.inl ⟨j, rfl, rfl⟩)
  | status => exact .inr (.inr ⟨fun h0 => by simp [h0] at h, by simp, rfl⟩)
  | dout j => exact .inr (.inr ⟨fun h0 => by simp [h0] at h, by simp, rfl⟩)
  | ks i => exact .inr (.inr ⟨fun h0 => by simp [h0] at h, by simp, rfl⟩)
  | reserved => exact .inr (.inr ⟨fun h0 => by simp [h0] at h, by simp, rfl⟩)

/-- A read that completes is admitted and only adds the value read to what the host has read. -/
theorem hostRead_next {addr width : Nat} {s t : State} (h : hostRead addr width s = .next t) :
    ∃ off, windowOffset s.cfg addr = some off ∧ width = 4 ∧ off % 4 = 0 ∧ (s.busy = true → off = 4) ∧
      t = s.observe (memRead s off) := by
  unfold hostRead at h
  cases hw : windowOffset s.cfg addr with
  | none => simp [hw] at h
  | some off =>
    simp only [hw] at h
    split_ifs at h with h1 h2
    · simp only [admitted, decide_eq_false_iff_not, not_not] at h1
      refine ⟨off, rfl, h1.1, h1.2, fun hb => ?_, by simpa using h.symm⟩
      by_contra hne
      exact h2 ⟨hb, fun hs => hne (regAt_eq_status.mp hs)⟩

/-- A write that completes is admitted, finds the engine idle, and does what `memWrite` does. -/
theorem hostWrite_next {addr width : Nat} {v : Bits32} {s t : State} (h : hostWrite addr width v s = .next t) :
    ∃ off, windowOffset s.cfg addr = some off ∧ width = 4 ∧ off % 4 = 0 ∧ s.busy = false ∧ memWrite off v s = .next t := by
  unfold hostWrite at h
  cases hw : windowOffset s.cfg addr with
  | none => simp [hw] at h
  | some off =>
    simp only [hw] at h
    split_ifs at h with h1 h2
    · simp only [admitted, decide_eq_false_iff_not, not_not] at h1
      exact ⟨off, rfl, h1.1, h1.2, by simpa using h2, h⟩

/-- A step that completes found nothing pending, or took the oldest access, which completed. -/
theorem step_next {s t : State} (h : step s = .next t) :
    (s.inbox = [] ∧ t = s) ∨ ∃ a rest, s.inbox = a :: rest ∧ hostAccess a (s.withInbox rest) = .next t := by
  unfold step takeAccess at h
  cases hi : s.inbox with
  | nil => simp only [hi] at h; exact .inl ⟨rfl, by simpa using h.symm⟩
  | cons a rest => simp only [hi] at h; exact .inr ⟨a, rest, rfl, h⟩

end Sys2Proof.Machine
end

