-- ==== Sys2Proof/Laws/Decode.lean ====
section
/-! SUPPORT. The fields of a command word as arithmetic on its value, and what decoding can answer. -/

namespace Sys2Proof

theorem opField_toNat (v : Bits32) : (opField v).toNat = v.toNat % 16 := by
  simp [opField]

theorem rsvField_toNat (v : Bits32) : (rsvField v).toNat = v.toNat / 16 % 4096 := by
  simp [rsvField, Nat.shiftRight_eq_div_pow]

theorem argField_toNat (v : Bits32) : (argField v).toNat = v.toNat / 65536 := by
  have := v.isLt
  simp only [argField, BitVec.extractLsb'_toNat, Nat.shiftRight_eq_div_pow]
  omega

/-- RSV is 0 exactly when bits 15:4 of the value are. -/
theorem rsvField_eq_zero (v : Bits32) : rsvField v = 0 ↔ v.toNat / 16 % 4096 = 0 := by
  rw [← rsvField_toNat, ← BitVec.toNat_inj]
  rfl

/-- A word whose reserved bits are not 0 is illegal. -/
theorem decode_of_rsv (v : Bits32) (h : rsvField v ≠ 0) : decode v = .illegal (.reservedField (rsvField v)) := by
  unfold decode
  rw [if_pos h]

end Sys2Proof
end

