-- ==== Sys2Proof/Laws/PerInstr.lean ====
section
/-! SUPPORT. Facts about every command as syntax, one lemma per constructor. -/

/-- The word of a command holds its OP and its ARG, and nothing in the reserved field (30_encoding.md R71, R74). -/
def Sys2Proof.Laws.EncodedFields.Statement (i : Sys2Proof.Instr) : Prop :=
  Sys2Proof.opField (Sys2Proof.encode i) = i.op ∧ Sys2Proof.rsvField (Sys2Proof.encode i) = 0 ∧
    Sys2Proof.argField (Sys2Proof.encode i) = BitVec.ofNat 16 i.arg

namespace Sys2Proof.Laws.EncodedFields

/-- Cutting a concatenation at its own seams gives its parts back. -/
theorem fields_of_append (a : BitVec 16) (b : BitVec 12) (c : BitVec 4) :
    opField (a ++ b ++ c) = c ∧ rsvField (a ++ b ++ c) = b ∧ argField (a ++ b ++ c) = a := by
  refine ⟨?_, ?_, ?_⟩
  · apply BitVec.eq_of_getLsbD_eq
    intro i hi
    simp only [opField, BitVec.getLsbD_extractLsb', BitVec.getLsbD_append]
    simp [hi]
  · apply BitVec.eq_of_getLsbD_eq
    intro i hi
    simp only [rsvField, BitVec.getLsbD_extractLsb', BitVec.getLsbD_append]
    simp [hi]
  · apply BitVec.eq_of_getLsbD_eq
    intro i hi
    simp only [argField, BitVec.getLsbD_extractLsb', BitVec.getLsbD_append]
    have h1 : ¬ 16 + i < 4 := by omega
    have h2 : ¬ 16 + i - 4 < 12 := by omega
    have h3 : 16 + i - 4 - 12 = i := by omega
    simp [hi, h1, h2, h3]

theorem construct (arg : Nat) : Statement (.construct arg) := fields_of_append _ _ _
theorem expandKey (arg : Nat) : Statement (.expandKey arg) := fields_of_append _ _ _
theorem encryptBlock (arg : Nat) : Statement (.encryptBlock arg) := fields_of_append _ _ _
theorem decryptBlock (arg : Nat) : Statement (.decryptBlock arg) := fields_of_append _ _ _

end Sys2Proof.Laws.EncodedFields
end

