-- ==== Sys2Proof/Laws/Rounds.lean ====
section
/-! SUPPORT. The small lemmas of the round sequences and of key expansion. -/

namespace Sys2Proof.Machine

@[simp] theorem BlockRun.advance_block (r : BlockRun) (d : Dir) (k : Nat) (f : Block → Block) :
    (r.advance d k f).block = f r.block := rfl

@[simp] theorem BlockRun.advance_events (r : BlockRun) (d : Dir) (k : Nat) (f : Block → Block) :
    (r.advance d k f).events = r.events ++ [⟨d, k, f r.block⟩] := rfl

/-- The middle rounds are 1 to Nr-1. -/
theorem mem_middleRounds {nr k : Nat} : k ∈ middleRounds nr ↔ 1 ≤ k ∧ k < nr := by
  simp only [middleRounds, List.mem_range'_1]
  omega

/-- The block a sequence of rounds ends in does not depend on the events emitted before it. -/
theorem foldl_advance_block (l : List Nat) (d : Dir) (num : Nat → Nat) (f : Nat → Block → Block) (r : BlockRun) :
    (l.foldl (fun r k => r.advance d (num k) (f k)) r).block = l.foldl (fun S k => f k S) r.block := by
  induction l generalizing r with
  | nil => rfl
  | cons k l ih => exact ih _

/-- `n` more words make a list `n` longer. -/
theorem length_expandFrom (nk n : Nat) (w : List Word) : (expandFrom nk n w).length = w.length + n := by
  induction n generalizing w with
  | zero => rfl
  | succ n ih => rw [expandFrom, ih, List.length_append]; simp; omega

/-- Expansion keeps the words it has. -/
theorem prefix_expandFrom (nk n : Nat) (w : List Word) : w <+: expandFrom nk n w := by
  induction n generalizing w with
  | zero => exact List.prefix_refl w
  | succ n ih => exact (List.prefix_append w _).trans (ih _)

@[simp] theorem length_keyWords (key : List Byte) (nk : Nat) : (keyWords key nk).length = nk := by
  simp [keyWords]

/-- Two schedules that agree on the words of RoundKey(r) have the same RoundKey(r). -/
theorem roundKey_congr {ks ks' : Vector Word 60} {r : Nat}
    (h : ∀ c : Fin 4, roundKeyWord ks r c = roundKeyWord ks' r c) : roundKey ks r = roundKey ks' r := by
  unfold roundKey
  simp only [h]

end Sys2Proof.Machine
end

