-- ==== Sys2Proof/Tests/Slice0.lean ====
section
/-! SUPPORT. Tests with expected values from spec/ (the vector's name in 95_test_vectors.md, or the rule, stands before each), and for every
statement with hypotheses a witness that they can be met. -/

namespace Sys2Proof.Tests

open Sys2Proof.Machine

/-- The next state, or the reset state where there is none. -/
def after : Host.Outcome State Fault Refusal → State
  | .next t => t
  | .fault _ => State.reset
  | .refused _ => State.reset

/-- The bytes of a 128-bit value, most significant first. -/
def hex (v : BitVec 128) : Block := blockOfBus v

/-- Reset, then a variant, and DIN with the given 32 bytes. -/
def configured (v : Variant) (hi lo : BitVec 128) : State :=
  { State.reset with var := v, din := (hex hi ++ hex lo).cast (by decide) }

/-- The same after EXPAND_KEY of the key in DIN, with the given block in DIN[0..15]. -/
def keyed (v : Variant) (len : Nat) (hi lo block : BitVec 128) : State :=
  { after (exec (.expandKey len) (configured v hi lo)) with din := (hex block ++ hex lo).cast (by decide) }

/-! ## WellFormed: each command's operand check refuses a term that cannot be encoded (R81) -/

theorem test_wf_construct_refuses : (Instr.construct 65536).wf = false := by decide
theorem test_wf_expandKey_refuses : (Instr.expandKey 65536).wf = false := by decide
theorem test_wf_encryptBlock_refuses : (Instr.encryptBlock 70000).wf = false := by decide
theorem test_wf_decryptBlock_refuses : (Instr.decryptBlock 65536).wf = false := by decide

/-! ## Decode: words of R79, V-ERR-4 and V-ERR-27, and reserved OPs, bit by bit from the format of R71 -/

theorem test_decode_construct : decode 0b00000000110000000000000000000001 = .command (.construct 192) := by decide
theorem test_decode_expandKey : decode 0b00000000001000000000000000000010 = .command (.expandKey 32) := by decide
theorem test_decode_encryptBlock : decode 0b11111111111111110000000000000011 = .command (.encryptBlock 65535) := by decide
theorem test_decode_decryptBlock : decode 0b00000000000100000000000000000100 = .command (.decryptBlock 16) := by decide
theorem test_decode_rsv_low : decode 0x00800011 = .illegal (.reservedField 1) := by decide
theorem test_decode_rsv_high : decode 0x00108003 = .illegal (.reservedField 0x800) := by decide
theorem test_decode_op0 : decode 0x00000000 = .illegal (.reservedOp 0) := by decide
theorem test_decode_op5 : decode 0x00100005 = .illegal (.reservedOp 5) := by decide
theorem test_decode_op15 : decode 0x0000000F = .illegal (.reservedOp 15) := by decide
theorem test_decode_table_word : decodeTableWord 16 0x0003 = some (.encryptBlock 0) := by decide

/-! ## Units -/

/-- V-GF-5, V-GF-10, V-GF-15, V-GF-7 -/
theorem test_gmul : gmul 0x57 0x83 = 0xC1 ∧ gmul 0xFF 0xFF = 0x13 ∧ gmul 0x80 0x80 = 0x9A ∧ gmul 0x57 0x13 = 0xFE := by
  decide
/-- V-GF-22, V-RC-1 -/
theorem test_xtime_rcon : xtime 0x8D = 0x01 ∧ xtime 0x7F = 0xFE ∧ rcon 9 = 0x1B ∧ rcon 14 = 0x4D := by decide
/-- V-SB-1, 4, 6, 8, 9, 11, 14, 15 -/
theorem test_sbox : sbox 0x00 = 0x63 ∧ sbox 0x53 = 0xED ∧ sbox 0x80 = 0xCD ∧ sbox 0xFF = 0x16 ∧
    invSbox 0x00 = 0x52 ∧ invSbox 0x52 = 0x48 ∧ invSbox 0xED = 0x53 ∧ invSbox 0xFF = 0x7D := by decide
/-- V-KS-2 -/
theorem test_words : rotWord ⟨0x09, 0xcf, 0x4f, 0x3c⟩ = ⟨0xcf, 0x4f, 0x3c, 0x09⟩ ∧
    subWord ⟨0xcf, 0x4f, 0x3c, 0x09⟩ = ⟨0x8a, 0x84, 0xeb, 0x01⟩ := by decide

/-- The input of V-PR-1 to V-PR-6. -/
def counting : Block := hex 0x000102030405060708090a0b0c0d0e0f

theorem test_V_PR_1_2 : subBytes counting = hex 0x637c777bf26b6fc53001672bfed7ab76 ∧
    invSubBytes counting = hex 0x52096ad53036a538bf40a39e81f3d7fb := by decide +kernel
theorem test_V_PR_3_4 : shiftRows counting = hex 0x00050a0f04090e03080d02070c01060b ∧
    invShiftRows counting = hex 0x000d0a0704010e0b0805020f0c090603 := by decide +kernel
theorem test_V_PR_5_6 : mixColumns counting = hex 0x02070005060304010a0f080d0e0b0c09 ∧
    invMixColumns counting = hex 0x0a0f080d0e0b0c090207000506030401 := by decide +kernel
theorem test_V_MC_1_7 : mixColumn ⟨0xdb, 0x13, 0x53, 0x45⟩ = ⟨0x8e, 0x4d, 0xa1, 0xbc⟩ ∧
    invMixColumn ⟨0xdb, 0x13, 0x53, 0x45⟩ = ⟨0x32, 0xa4, 0x1d, 0x55⟩ ∧
    invMixColumn ⟨0x80, 0, 0, 0⟩ = ⟨0x41, 0xec, 0xda, 0xf7⟩ := by decide +kernel
theorem test_V_PR_7 : addRoundKey (hex 0x00112233445566778899aabbccddeeff) counting =
    hex 0x00102030405060708090a0b0c0d0e0f0 := by decide +kernel
theorem test_bus : busOfBlock counting = 0x000102030405060708090a0b0c0d0e0f := by decide +kernel

/-! ## Steps from the word on -/

/-- V-ERR-9: CONSTRUCT 192 from reset. -/
theorem test_construct : statusWord (after (step (State.reset.withFetchWord 32 0x00C00001))) = 0x00020000 := by
  decide +kernel
/-- V-ERR-26: a failed CONSTRUCT leaves VAR and KSV. -/
theorem test_construct_fails : statusWord (after (step
    (State.withFetchWord { State.reset with var := .aes128, ksv := true } 32 0x00400001))) = 0x00110002 := by decide +kernel
/-- V-KS-7: the last word of the AES-256 schedule, and V-KS-7's w[12], the SubWord-only branch, as the host reads them. -/
theorem test_expandKey :
    (fun t => (memRead t 0x1EC, memRead t 0x130)) (after (step ((configured .aes256 0x000102030405060708090a0b0c0d0e0f
      0x101112131415161718191a1b1c1d1e1f).withFetchWord 32 0x00200002))) = (0x6d68de36, 0x1651a8cd) := by decide +kernel
/-- V-ERR-15: no truncation. -/
theorem test_expandKey_length : statusWord (after (step
    (State.withFetchWord { State.reset with var := .aes128 } 32 0x00180002))) = 0x00010003 := by decide +kernel
/-- V-KAT-1, the document's own vector. -/
theorem test_encryptBlock : (after (step ((keyed .aes128 16 0x000102030405060708090a0b0c0d0e0f 0
    0x00112233445566778899aabbccddeeff).withFetchWord 32 0x00100003))).dout = hex 0x69c4e0d86a7b0430d8cdb78070b4c55a := by
  decide +kernel
/-- V-ERR-18: the length before KSV. -/
theorem test_encryptBlock_length : statusWord (after (step
    (State.withFetchWord { State.reset with var := .aes128 } 32 0x000F0003))) = 0x00010004 := by decide +kernel
/-- V-ENC-2 the other way: AES-192, from the ciphertext to the plaintext. -/
theorem test_decryptBlock : (after (step ((keyed .aes192 24 0x000102030405060708090a0b0c0d0e0f
    0x10111213141516170000000000000000 0xdda97ca4864cdfe06eaf70a0ec0d7191).withFetchWord 32 0x00100004))).dout =
      hex 0x00112233445566778899aabbccddeeff := by decide +kernel
/-- V-ERR-17 for DECRYPT_BLOCK: KeyNotExpanded. -/
theorem test_decryptBlock_no_key : statusWord (after (step
    (State.withFetchWord { State.reset with var := .aes128 } 32 0x00100004))) = 0x00010005 := by decide +kernel
/-- V-TR-1 and V-TR-2: the first and the second event of each direction under the key of V-KS-1, on the vector's own blocks. -/
theorem test_trace : ((cipher (keyed .aes128 16 0x000102030405060708090a0b0c0d0e0f 0 0).ks 10
      (hex 0x00112233445566778899aabbccddeeff)).events.take 2 =
    [⟨.enc, 0, hex 0x00102030405060708090a0b0c0d0e0f0⟩, ⟨.enc, 1, hex 0x89d810e8855ace682d1843d8cb128fe4⟩]) ∧
    ((invCipher (keyed .aes128 16 0x000102030405060708090a0b0c0d0e0f 0 0).ks 10
      (hex 0x69c4e0d86a7b0430d8cdb78070b4c55a)).events.take 2 =
    [⟨.dec, 0, hex 0x7ad5fda789ef4e272bca100b3d9ff59f⟩, ⟨.dec, 1, hex 0x54d990a16ba09ab596bbf40ea111702f⟩]) := by
  decide +kernel
/-- V-ERR-1: an illegal word from reset. -/
theorem test_illegal : statusWord (after (step (State.reset.withFetchWord 32 0x00000000))) = 0x00000001 := by decide +kernel
/-- V-REG-9: big-endian lanes. -/
theorem test_din_lanes : memRead (after (step (State.reset.withInbox [.write 0x010 4 0x00112233]))) 0x010 = 0x00112233 ∧
    (after (step (State.reset.withInbox [.write 0x010 4 0x00112233]))).din[1] = 0x11 := by decide +kernel
/-- V-REG-3: a write to DOUT is ignored. -/
theorem test_dout_write_ignored :
    (after (step (State.reset.withInbox [.write 0x030 4 0x12345678]))).dout = State.reset.dout := by decide +kernel

/-! ## Witnesses: the hypotheses of each statement can be met, for each clause at a boundary of its range -/

/-- A state that passes every check of the block commands. -/
def ready : State := { State.reset with var := .aes128, ksv := true }

/-- A pending write of a command word. -/
def commanded (s : State) (v : Bits32) : State := s.withInbox [.write 0 4 v]

theorem witness_DecodeInvertsEncode : (Instr.construct 65535).wf = true ∧ (Instr.expandKey 0).wf = true ∧
    (Instr.encryptBlock 65535).wf = true ∧ (Instr.decryptBlock 16).wf = true := by decide
theorem witness_EncodeInvertsDecode : decode 0xFFFF0001 = .command (.construct 65535) := by decide
theorem witness_CommandWordLayout : (65535 : Nat) ≤ 65535 := by decide
theorem witness_IllegalWordsOnlySetErr :
    (0x00108003#32).toNat / 16 % 4096 ≠ 0 ∧ (0x00100000#32).toNat % 16 = 0 ∧ 5 ≤ (0x00000005#32).toNat % 16 ∧
    ¬((0x00100004#32).toNat / 16 % 4096 ≠ 0 ∨ (0x00100004#32).toNat % 16 = 0 ∨ 5 ≤ (0x00100004#32).toNat % 16) := by decide
theorem witness_StepRunsDecodedCommand :
    (commanded State.reset 0x00800001).inbox = .write (commanded State.reset 0x00800001).cfg.engineBase 4 0x00800001 :: [] ∧
    (commanded State.reset 0x00800001).busy = false ∧ decode 0x00800001 = .command (.construct 128) ∧
    decodeTableWord 32 0x00800001 = some (.construct 128) := by decide
theorem witness_ConstructSelectsVariant :
    exec (.construct 256) ready = .next (after (exec (.construct 256) ready)) ∧ (after (exec (.construct 256) ready)).err = 0 ∧
    (129 ≠ 128 ∧ 129 ≠ 192 ∧ 129 ≠ 256) := ⟨rfl, rfl, by decide⟩
theorem witness_ExpandKeyLoadsSchedule : State.reset.var = .none ∧
    ready.var.params = some ⟨4, 10⟩ ∧ 16 = 4 * (Params.mk 4 10).nk ∧ 15 ≠ 4 * (Params.mk 4 10).nk := by decide
theorem witness_EncryptBlockRunsCipher : State.reset.var = .none ∧ ready.var ≠ .none ∧ 17 ≠ 16 ∧
    ready.var.params = some ⟨4, 10⟩ ∧ ready.ksv = true ∧ { ready with ksv := false }.ksv = false := by decide
theorem witness_DecryptBlockRunsInvCipher : State.reset.var = .none ∧ ready.var ≠ .none ∧ 0 ≠ 16 ∧
    ready.var.params = some ⟨4, 10⟩ ∧ ready.ksv = true ∧ { ready with ksv := false }.ksv = false := by decide
theorem witness_CommandWindowFrame :
    (exec (.construct 0) ready = .next (ready.raise .invalidKeyVariant) ∧ (ready.raise .invalidKeyVariant).err ≠ 0 ∧
      0x100 % 4 = 0 ∧ 0x100 ≠ 0x004) ∧
    (exec (.construct 128) ready = .next (ready.configure .aes128).succeed ∧ ¬(0x100 ≤ 0x0FC ∧ 0x0FC < 0x1F0)) ∧
    (exec (.decryptBlock 16) ready = .next (ready.finishBlock (invCipher ready.ks 10 ready.blockIn)) ∧
      ¬(0x030 ≤ 0x02C ∧ 0x02C < 0x040)) :=
  ⟨⟨rfl, by decide, by decide, by decide⟩, ⟨rfl, by decide⟩, ⟨rfl, by decide⟩⟩
theorem witness_RepeatedCommandSameResult :
    exec (.construct 128) ready = .next (ready.configure .aes128).succeed ∧
    exec (.expandKey 16) ready = .next (ready.loadSchedule (keyExpansion (ready.rawKey 4) ⟨4, 10⟩) 44).succeed ∧
    exec (.encryptBlock 16) ready = .next (ready.finishBlock (cipher ready.ks 10 ready.blockIn)) ∧
    exec (.decryptBlock 16) ready = .next (ready.finishBlock (invCipher ready.ks 10 ready.blockIn)) := ⟨rfl, rfl, rfl, rfl⟩
/-- DIN that differs from that of `ready` only in byte 16. -/
def otherDin : Vector Byte 32 := ready.din.set 16 1
theorem witness_UnusedInputIgnored :
    (∀ k : Fin 32, k.val < 16 → otherDin[k.val] = ready.din[k.val]) ∧ otherDin ≠ ready.din ∧
    ready.var.params = some ⟨4, 10⟩ ∧ 4 * (Params.mk 4 10).nk = 16 := by decide +kernel
theorem witness_FailedCommandOnlySetsErr :
    execute 0 ready = .next (ready.raise .illegalCommand) ∧ (ready.raise .illegalCommand).err ≠ 0 := ⟨rfl, by decide⟩
theorem witness_ErrReportsLastCommandOnly : 0x1FC ≠ 0 ∧ memWrite 0x1FC 5 ready = .next ready ∧
    memWrite 0x010 5 ready = .next (ready.writeDin 0 5) := ⟨by decide, rfl, rfl⟩
/-- Its last clause at a read of CMD. -/
theorem witness_ErrReportsLastCommandOnly_read :
    step (ready.withInbox [.read 0 4]) = .next ((ready.withInbox []).observe 0) ∧
    (∀ v rest, [.read 0 4] ≠ HostAccess.write 0 4 v :: rest) ∧ ∀ rest, [.read 0 4] ≠ HostAccess.reset :: rest :=
  ⟨rfl, by simp, by simp⟩
/-- Its last clause at a write at the offset after CMD. -/
theorem witness_ErrReportsLastCommandOnly_write :
    step (ready.withInbox [.write 4 4 1]) = .next (ready.withInbox []) ∧
    (∀ v rest, [.write 4 4 1] ≠ HostAccess.write 0 4 v :: rest) ∧ ∀ rest, [.write 4 4 1] ≠ HostAccess.reset :: rest :=
  ⟨rfl, by simp, by simp⟩
theorem witness_GmulFieldLaws : (0x53 : Byte) ≠ 0 ∧ gmul 0x53 0xCA = 1 := by decide
theorem witness_RoundConstantTable : (1 ≤ 1 ∧ 1 ≤ 13) ∧ (1 ≤ 13 ∧ 13 ≤ 13) := by decide
theorem witness_SubstitutionTablesInverse : sbox 0xFF = sbox 0xFF := rfl
theorem witness_SubstitutionConstruction : (0x02 : Byte) ≠ 0 ∧ gmul 0x02 0x8D = 1 ∧ sbox 0x53 = 0xED := by decide
theorem witness_KeyExpansionRecurrence :
    Variant.aes256.params = some ⟨8, 14⟩ ∧ (List.replicate 32 (0 : Byte)).length = 4 * (Params.mk 8 14).nk ∧
    (7 < 8 ∧ 3 < 4) ∧ (8 ≤ 8 ∧ 8 < 4 * (14 + 1) ∧ 8 % 8 = 0) ∧ (12 % 8 = 4 ∧ 6 < 8) ∧ (59 < 4 * (14 + 1)) := by decide
theorem witness_ScheduleIndicesInRange : Variant.aes128.params = some ⟨4, 10⟩ ∧
    (4 ≤ 40 ∧ 40 < 4 * (10 + 1) ∧ 40 % 4 = 0) ∧ (10 ≤ 10 ∧ 3 < 4) := by decide
theorem witness_AddRoundKeyFormula : (14 : Nat) ≤ 14 ∧ (3 < 4 ∧ 3 < 4) := by decide
theorem witness_SubBytesFormula : (15 : Nat) < 16 := by decide
theorem witness_ShiftRowsFormula : (3 : Nat) < 4 ∧ (3 : Nat) < 4 := by decide
theorem witness_MixColumnsEquations : (3 : Nat) < 4 := by decide
theorem witness_InvMixColumnsEquations : (3 : Nat) < 4 := by decide
theorem witness_MixColumnsPolynomial : (3 : Nat) < 4 := by decide
theorem witness_CipherRoundSequence : 1 ≤ 14 ∧ (1 ≤ 13 ∧ 13 < 14) := by decide
theorem witness_InvCipherRoundSequence : 1 ≤ 10 ∧ (1 ≤ 1 ∧ 1 < 10) := by decide

/-- What ENCRYPT_BLOCK leaves, and the state whose DIN holds that result. -/
def encrypted : State := ready.finishBlock (cipher ready.ks 10 ready.blockIn)
def decrypted : State := ready.finishBlock (invCipher ready.ks 10 ready.blockIn)
def copiedBack (t : State) : State := { t with din := Vector.ofFn fun k : Fin 32 => if h : k.val < 16 then t.dout[k.val] else 0 }
theorem witness_DecryptUndoesEncrypt (t : State) (ht : t = encrypted ∨ t = decrypted) :
    t.err = 0 ∧ (copiedBack t).var = t.var ∧ (copiedBack t).ksv = t.ksv ∧ (copiedBack t).ks = t.ks ∧
    (∀ (k : Nat) (h : k < 16), (copiedBack t).din[k] = t.dout[k]) := by
  refine ⟨?_, by simp only [copiedBack], by simp only [copiedBack], by simp only [copiedBack], ?_⟩
  · rcases ht with h | h
    · rw [h]; exact State.finishBlock_err ready (cipher ready.ks 10 ready.blockIn)
    · rw [h]; exact State.finishBlock_err ready (invCipher ready.ks 10 ready.blockIn)
  · intro k h
    simp [copiedBack, h]
theorem witness_DecryptUndoesEncrypt_runs :
    exec (.encryptBlock 16) ready = .next encrypted ∧ exec (.decryptBlock 16) ready = .next decrypted := ⟨rfl, rfl⟩
theorem witness_TraceEventsOfBlockCommands :
    (exec (.encryptBlock 16) ready = .next encrypted ∧ encrypted.err = 0 ∧ ready.cfg.tracePresent = true) ∧
    (exec (.decryptBlock 15) ready = .next (ready.raise .invalidBlockLength) ∧ (ready.raise .invalidBlockLength).err ≠ 0) ∧
    { ready with cfg := ⟨0, false⟩ }.cfg.tracePresent = false := ⟨⟨rfl, rfl, rfl⟩, ⟨rfl, by decide⟩, rfl⟩

/-- `ready` without a trace port. -/
def untraced : State := { ready with cfg := ⟨0, false⟩ }
theorem witness_TracePortNeverChangesState : TraceBlindEq (commanded ready 0x00100003) (commanded untraced 0x00100003) ∧
    ready ≠ untraced ∧ exec (.construct 128) ready = .next (ready.configure .aes128).succeed :=
  ⟨⟨rfl, rfl, rfl, rfl, rfl, rfl, rfl, rfl, rfl, rfl, rfl⟩, by decide +kernel, rfl⟩

/-- A pending read. -/
def reading (s : State) (off : Nat) : State := s.withInbox [.read (s.cfg.engineBase + off) 4]
theorem witness_HostReadReturnsRegister :
    (0x1FC < 0x200 ∧ 0x1FC % 4 = 0 ∧ (reading ready 0x1FC).busy = false ∧
      (reading ready 0x1FC).inbox = .read ((reading ready 0x1FC).cfg.engineBase + 0x1FC) 4 :: []) ∧
    (8 ≤ 8 ∧ 8 < 0x010) ∧ (0x040 ≤ 0x0FC ∧ 0x0FC < 0x100) ∧ (0x1F0 ≤ 0x1F0 ∧ 0x1F0 < 0x200) ∧
    (ready.ksv = true ∧ 43 < ready.var.kslen) ∧ ¬(44 < ready.var.kslen) := by decide
theorem witness_StatusLayout : (4 ≤ 7 ∧ 7 ≤ 7) ∧ (9 ≤ 9 ∧ 9 ≤ 15) ∧ (18 ≤ 19 ∧ 19 ≤ 19) ∧ (21 ≤ 31 ∧ 31 ≤ 31) := by decide

/-- A pending write. -/
def writing (s : State) (off : Nat) (v : Bits32) : State := s.withInbox [.write (s.cfg.engineBase + off) 4 v]
theorem witness_HostWriteEffects :
    (0x02C < 0x200 ∧ 0x02C % 4 = 0 ∧ 0x02C = 0x010 + 4 * 7 ∧ (writing ready 0x02C 1).busy = false ∧
      (writing ready 0x02C 1).inbox = .write ((writing ready 0x02C 1).cfg.engineBase + 0x02C) 4 1 :: []) ∧
    { writing ready 0 1 with busy := true }.busy = true ∧
    (0x00C ≠ 0 ∧ 0x00C < 0x010) ∧ (0x030 ≠ 0 ∧ 0x030 ≤ 0x030) := by decide
theorem witness_DinWriteThenRead : 7 < 8 ∧ 0x030 % 4 = 0 ∧ 0x030 ≠ 0x010 + 4 * 7 := by decide
theorem witness_UnadmittedAccessStuck :
    (ready.cfg.engineBase ≤ 0x1FE ∧ 0x1FE < ready.cfg.engineBase + 0x200 ∧ (0x1FE - ready.cfg.engineBase) % 4 ≠ 0) ∧ 2 ≠ 4 ∧
    (ready.withInbox [.read 0x1FE 4]).inbox = .read 0x1FE 4 :: [] ∧
    (ready.withInbox [.write 0x1FC 2 0]).inbox = .write 0x1FC 2 0 :: [] := by decide
theorem witness_BusyAdmitsOnlyStatusReads :
    { reading ready 4 with busy := true }.busy = true ∧
    { reading ready 4 with busy := true }.inbox = .read (ready.cfg.engineBase + 4) 4 :: [] ∧
    { reading ready 0 with busy := true }.inbox = .read (ready.cfg.engineBase + 0) 4 :: [] ∧
    { writing ready 4 0 with busy := true }.inbox = .write (ready.cfg.engineBase + 4) 4 0 :: [] := by decide
theorem witness_IdleEngineHoldsState : ready.inbox = [] := rfl
theorem witness_ResetValues :
    { ready.withInbox [.reset] with busy := true }.inbox = .reset :: [] := rfl

/-- A state that holds the schedule of the all-zero key. -/
def scheduled : State :=
  { ready with ks := storeWords (keyExpansion (List.replicate 16 0) ⟨4, 10⟩) 44 ready.ks }
theorem scheduled_inv : Inv scheduled where
  notBusy := rfl
  errLegal := by decide
  traceAbsent := fun h => by simp [scheduled, ready, State.reset, Config.chosen] at h
  scheduleValid := fun _ => by
    refine ⟨⟨4, 10⟩, List.replicate 16 0, rfl, rfl, fun i h hi => ?_⟩
    have hl : (keyExpansion (List.replicate 16 0) ⟨4, 10⟩).length = 44 := by
      rw [keyExpansion, length_expandFrom, length_keyWords]; rfl
    have hi' : i < 44 := hi
    simp only [scheduled, getElem_storeWords, hi', if_true, List.getD_eq_getElem?_getD]
    rw [List.getElem?_eq_getElem (by omega)]
    rfl
theorem witness_StepKeepsInvariant : Inv scheduled ∧ scheduled.ksv = true ∧ step scheduled = .next scheduled :=
  ⟨scheduled_inv, rfl, rfl⟩

/-- `scheduled` with another word past KSLEN. -/
def hiddenWord : State := { scheduled with ks := scheduled.ks.set 44 ⟨1, 2, 3, 4⟩ }
theorem witness_HiddenKsWordsNeverSeen : GateEq scheduled hiddenWord ∧ scheduled.ks ≠ hiddenWord.ks := by
  refine ⟨⟨rfl, rfl, rfl, rfl, rfl, rfl, rfl, rfl, rfl, rfl, rfl, ?_⟩, by decide +kernel⟩
  intro _ i h hi
  have hi' : i < 44 := hi
  simp only [hiddenWord, Vector.getElem_set]
  rw [if_neg (by omega)]
theorem witness_ConfigurationWriters :
    (step (commanded ready 0x01000001) = .next ((ready.withInbox []).configure .aes256).succeed ∧
      ((ready.withInbox []).configure .aes256).succeed.var ≠ ready.var ∧
      ready.ksv = true ∧ ((ready.withInbox []).configure .aes256).succeed.ksv = false) ∧
    (step (commanded { ready with ksv := false } 0x00100002) = .next (after (step (commanded { ready with ksv := false } 0x00100002))) ∧
      (after (step (commanded { ready with ksv := false } 0x00100002))).ksv = true) :=
  ⟨⟨rfl, by decide, rfl, rfl⟩, ⟨rfl, rfl⟩⟩
theorem witness_BufferWriters :
    (step (writing ready 0x02C 1) = .next ((ready.withInbox []).writeDin 7 1) ∧
      ((ready.withInbox []).writeDin 7 1).din ≠ ready.din) ∧
    (step (commanded ready 0x00100003) = .next (after (step (commanded ready 0x00100003))) ∧
      (after (step (commanded ready 0x00100003))).dout ≠ ready.dout) ∧
    (step (commanded ready 0x00100002) = .next (after (step (commanded ready 0x00100002))) ∧
      (after (step (commanded ready 0x00100002))).ks ≠ ready.ks) :=
  ⟨⟨rfl, by decide +kernel⟩, ⟨rfl, by decide +kernel⟩, ⟨rfl, by decide +kernel⟩⟩
theorem witness_StepKeepsParameters : step (reading ready 4) = .next ((ready.withInbox []).observe 0x00110000) := rfl

/-- A host about to poll. -/
def polling : HostState := ⟨expandPoll 3, 0, [], ready⟩
theorem witness_PollRunsOnce : polling.engine.busy = false ∧
    polling.program[polling.pos]? = some (.label (.pollOf 3)) ∧
    polling.program[polling.pos + 1]? = some (.rd 0x004 .polled) ∧
    polling.program[polling.pos + 2]? = some (.bnz .polled 0x100 (.pollOf 3)) := by decide

/-- A host with one operation and a variable it has read. -/
def hosting (o : HostOp) : HostState := ⟨[.label (.pollOf 0), o], 1, [(.polled, 0x100)], ready⟩
theorem witness_HostNotationMeaning : 65535 ≤ 65535 ∧ (32 % 4 = 0 ∧ 32 ≤ 32 ∧ 4 * 7 + 3 < 32) ∧
    (hosting (.wr 0x02C (.var .polled))).program[1]? = some (.wr 0x02C (.var .polled)) ∧
    (hosting (.wr 0x02C (.var .polled))).vars.lookup .polled = some 0x100 ∧
    step (writing ready 0x02C 0x100) = .next ((ready.withInbox []).writeDin 7 0x100) ∧
    step (reading ready 4) = .next ((ready.withInbox []).observe 0x00110000) := ⟨by decide, by decide, rfl, rfl, rfl, rfl⟩
/-- A taken branch to the first operation, and the same branch not taken. -/
theorem witness_HostNotationMeaning_bnz : (0x100 : Bits32) &&& 0x100 ≠ 0 ∧ (0x100 : Bits32) &&& 0x1 = 0 ∧
    (hosting (.bnz .polled 0x100 (.pollOf 0))).program[0]? = some (.label (.pollOf 0)) := by decide
theorem witness_UnitPortsDriveCommands : ready.var.params = some ⟨4, 10⟩ ∧ ready.ksv = true ∧
    ∀ (k : Nat) (h : k < 16), ready.blockIn[k] = ready.din[k] := ⟨rfl, rfl, fun k h => by simp [State.blockIn]⟩

/-- R81: `ldin` of a whole key is eight writes, the first of them of the bytes 00 01 02 03. -/
theorem test_ldin : (expandLine 0 (.ldin ((List.range 32).map (BitVec.ofNat 8)))).map (fun l => (l.length, l.head?)) =
    some (8, some (.wr 0x010 (.const 0x00010203))) := by decide +kernel

end Sys2Proof.Tests
end

section
/-! SUPPORT. The STATUS register bit by bit and the values after reset, and with them the statements of 10_state.md. -/

namespace Sys2Proof.Machine

/-! ## STATUS -/

@[simp] theorem memRead_status (s : State) : memRead s 0x004 = statusWord s := rfl

/-- A flag moved to bit `n` of a 32-bit register is that bit and no other. -/
theorem getLsbD_shifted_flag (f : Bool) (n : Nat) {b : Nat} (hb : b < 32) :
    ((BitVec.ofBool f).setWidth 32 <<< n).getLsbD b = (decide (b = n) && f) := by
  have only_n : (!decide (b < n) && decide (b - n = 0)) = decide (b = n) := by
    rw [← decide_not, ← Bool.decide_and, decide_eq_decide]
    omega
  simp [BitVec.getLsbD_ofBool, hb, ← only_n, Bool.and_assoc]

/-- Each bit of STATUS is a bit of the one field that lies there, and 0 where no field lies (10_state.md R24). -/
theorem getLsbD_statusWord (s : State) {b : Nat} (hb : b < 32) :
    (statusWord s).getLsbD b =
      (decide (b = 20) && s.ksv || decide (16 ≤ b) && s.var.code.getLsbD (b - 16) ||
        decide (b = 8) && s.busy || s.err.getLsbD b) := by
  simp only [statusWord, BitVec.getLsbD_or, getLsbD_shifted_flag _ _ hb]
  simp [hb, ← decide_not]

theorem statusWord_err (s : State) : (statusWord s).extractLsb' 0 4 = s.err := by
  apply BitVec.eq_of_getLsbD_eq
  intro i hi
  have outside : i ≠ 20 ∧ ¬16 ≤ i ∧ i ≠ 8 := by omega
  simp [hi, getLsbD_statusWord s (show i < 32 by omega), outside]

theorem statusWord_var (s : State) : (statusWord s).extractLsb' 16 2 = s.var.code := by
  apply BitVec.eq_of_getLsbD_eq
  intro i hi
  have outside : 16 + i ≠ 20 ∧ 16 + i ≠ 8 ∧ 4 ≤ 16 + i := by omega
  simp [hi, getLsbD_statusWord s (show 16 + i < 32 by omega), outside]

theorem statusWord_busy (s : State) : (statusWord s).getLsbD 8 = s.busy := by
  rw [getLsbD_statusWord s (by decide)]
  simp

theorem statusWord_ksv (s : State) : (statusWord s).getLsbD 20 = s.ksv := by
  rw [getLsbD_statusWord s (by decide)]
  simp

/-- A bit outside ERR, BUSY, VAR and KSV reads 0. -/
theorem statusWord_reserved (s : State) {b : Nat} (hb : b < 32) (herr : 4 ≤ b) (hbusy : b ≠ 8)
    (hvar : b < 16 ∨ 18 ≤ b) (hksv : b ≠ 20) : (statusWord s).getLsbD b = false := by
  have var_bit : (decide (16 ≤ b) && s.var.code.getLsbD (b - 16)) = false := by
    rcases hvar with below | above
    · simp [below]
    · simp [BitVec.getLsbD_of_ge s.var.code (b - 16) (by omega)]
  simp [getLsbD_statusWord s hb, hksv, hbusy, var_bit, BitVec.getLsbD_of_ge s.err b herr]

theorem memWrite_status (v : Bits32) (s : State) : memWrite 0x004 v s = .next s := rfl

theorem statusWord_resetOf (c : Config) : statusWord (State.resetOf c) = 0 := by
  simp [statusWord, Variant.code]

/-- Settles O41, by reading each field off the bits of `statusWord`. -/
theorem statusLayout : Obligations.StatusLayout := by
  intro s
  simp only [memRead_status]
  have codes : Variant.none.code = 0b00 ∧ Variant.aes128.code = 0b01 ∧ Variant.aes192.code = 0b10 ∧
      Variant.aes256.code = 0b11 := ⟨rfl, rfl, rfl, rfl⟩
  have reserved : ∀ b, (4 ≤ b ∧ b ≤ 7 ∨ 9 ≤ b ∧ b ≤ 15 ∨ 18 ≤ b ∧ b ≤ 19 ∨ 21 ≤ b ∧ b ≤ 31) →
      (statusWord s).getLsbD b = false := fun b hb =>
    statusWord_reserved s (by omega) (by omega) (by omega) (by omega) (by omega)
  exact ⟨statusWord_err s, statusWord_busy s, statusWord_var s, codes, statusWord_ksv s, reserved,
    fun v => memWrite_status v s, statusWord_resetOf⟩

/-! ## Reset -/

/-- While KSV = 0 the gate hides every KS word, whatever it holds (10_state.md R33). -/
theorem memRead_ks_of_ksv_false {s : State} (h : s.ksv = false) {i : Nat} (hi : i < 60) :
    memRead s (0x100 + 4 * i) = 0 := by
  simp [memRead, regAt_ks hi, readReg, readKs, h]

/-- A pending reset is taken at any time, BUSY or not (70_reset_and_hazards.md R230, R231). -/
theorem step_of_reset {s : State} {rest : List HostAccess} (h : s.inbox = .reset :: rest) :
    step s = .next (s.withInbox rest).engineReset := by
  simp [step, takeAccess, h, hostAccess]

/-- Settles O49: power-on and a reset access leave the same values, and KSV = 0 hides the KS words. -/
theorem resetValues : Obligations.ResetValues := by
  refine ⟨fun c => ⟨State.resetOf c, rfl, rfl, rfl, rfl, rfl, ?din, ?dout, rfl, ?ks⟩,
    fun s rest h => ⟨(s.withInbox rest).engineReset, step_of_reset h, rfl, rfl, rfl, rfl, ?din', ?dout', rfl, ?ks'⟩⟩
  case din | dout | din' | dout' => simp
  case ks => exact fun i hi => memRead_ks_of_ksv_false (State.resetOf_ksv c) hi
  case ks' => exact fun i hi => memRead_ks_of_ksv_false (State.engineReset_ksv _) hi

end Sys2Proof.Machine
end

section
/-! SUPPORT. Where the register window stands and which addresses fall in it, and with them the statements of 20_memory.md. -/

namespace Sys2Proof.Machine

/-! ## The base of the window -/

theorem engineBase_mod (c : Config) : c.engineBase % 0x200 = 0 :=
  Nat.mul_mod_right 0x200 c.windowIndex

/-- The window can be put at every multiple of 0x200: the parameter is free otherwise (20_memory.md R55). -/
theorem exists_engineBase_eq {b : Nat} (h : b % 0x200 = 0) : ∃ c : Config, c.engineBase = b :=
  ⟨⟨b / 0x200, true⟩, Nat.mul_div_cancel' (Nat.dvd_of_mod_eq_zero h)⟩

/-- Settles O46: `windowOffset_eq_some` places the address at the base plus its offset, which is R55's range and distance. -/
theorem windowSelection : Obligations.WindowSelection := by
  intro c a off
  refine ⟨engineBase_mod c, fun b => exists_engineBase_eq, ?selects⟩
  case selects =>
    rw [windowOffset_eq_some]
    omega

end Sys2Proof.Machine
end

section
/-! SUPPORT. Which command words are illegal, and with it the statements of 30_encoding.md. -/

namespace Sys2Proof

/-- While RSV is 0, OP alone says whether a word is a command (30_encoding.md R72). -/
theorem exists_decode_eq_illegal_of_rsv_zero {v : Bits32} (hrsv : rsvField v = 0) :
    (∃ r, decode v = .illegal r) ↔ v.toNat % 16 = 0 ∨ 5 ≤ v.toNat % 16 := by
  unfold decode
  rw [if_neg (not_not.mpr hrsv), opField_toNat]
  split
  case h_1 | h_2 | h_3 | h_4 => simp [*]
  case h_5 h1 h2 h3 h4 =>
    simp only [imp_false] at h1 h2 h3 h4
    exact iff_of_true ⟨_, rfl⟩ (by omega)

/-- The illegal words: RSV is not 0, or OP is 0 or 5 to 15 (30_encoding.md R74, R75). -/
theorem exists_decode_eq_illegal_iff (v : Bits32) :
    (∃ r, decode v = .illegal r) ↔ v.toNat / 16 % 4096 ≠ 0 ∨ v.toNat % 16 = 0 ∨ 5 ≤ v.toNat % 16 := by
  rw [ne_eq, ← rsvField_eq_zero]
  by_cases hrsv : rsvField v = 0
  · simp [hrsv, exists_decode_eq_illegal_of_rsv_zero hrsv]
  · exact iff_of_true ⟨_, decode_of_rsv v hrsv⟩ (.inl hrsv)

/-- A word that is not illegal selects a command (30_encoding.md R76). -/
theorem exists_decode_eq_command_of_not_illegal {v : Bits32} (h : ¬∃ r, decode v = .illegal r) :
    ∃ i, decode v = .command i := by
  cases hd : decode v with
  | command i => exact ⟨i, rfl⟩
  | illegal r => exact absurd ⟨r, hd⟩ h

end Sys2Proof

namespace Sys2Proof.Machine

theorem execute_of_illegal {v : Bits32} {r : DecodeReject} (h : decode v = .illegal r) (s : State) :
    execute v s = .next (s.raise .illegalCommand) := by
  simp [execute, h]

/-- Settles O5: the words named are exactly those that decode to a rejection, and a rejection only raises IllegalCommand. -/
theorem illegalWordsOnlySetErr : Obligations.IllegalWordsOnlySetErr := by
  intro v
  rw [← exists_decode_eq_illegal_iff v]
  exact ⟨fun ⟨_, h⟩ s => execute_of_illegal h s, exists_decode_eq_command_of_not_illegal⟩

end Sys2Proof.Machine
end

section
/-! SUPPORT. Products in GF(2^8): the loop of `gmul` carries sums, doublings and further products through, so factors can change places. -/

namespace Sys2Proof.Machine

/-- One iteration of the loop adds the operand where the bit is set, and doubles it (40_galois_field.md R100, R102). -/
theorem gmulLoop_succ (n : Nat) (p a b : Byte) :
    gmulLoop (n + 1) p a b = gmulLoop n (if b.getLsbD 0 then p ^^^ a else p) (xtime a) (b >>> 1) := by
  have doubled : (if a.getLsbD 7 then a <<< 1 ^^^ 0x1B#8 else a <<< 1) = xtime a := by
    unfold xtime
    split <;> simp
  simp [gmulLoop, ← doubled]

theorem xtime_xor (a b : Byte) : xtime (a ^^^ b) = xtime a ^^^ xtime b := by
  have reduction : ∀ p q : Bool, (if p ^^ q then 0x1B#8 else 0x00#8) =
      (if p then 0x1B#8 else 0x00#8) ^^^ (if q then 0x1B#8 else 0x00#8) := by decide
  simp only [xtime, BitVec.shiftLeft_xor_distrib, BitVec.getLsbD_xor, reduction]
  ac_rfl

theorem gmulLoop_xor (n : Nat) (p q a c b : Byte) :
    gmulLoop n (p ^^^ q) (a ^^^ c) b = gmulLoop n p a b ^^^ gmulLoop n q c b := by
  induction n generalizing p q a c b with
  | zero => rfl
  | succ n ih =>
    simp only [gmulLoop_succ, xtime_xor, ← ih]
    split
    · congr 1; ac_rfl
    · rfl

theorem gmulLoop_xtime (n : Nat) (p a b : Byte) : gmulLoop n (xtime p) (xtime a) b = xtime (gmulLoop n p a b) := by
  induction n generalizing p a b with
  | zero => rfl
  | succ n ih => simp only [gmulLoop_succ, ← xtime_xor, ← apply_ite xtime, ih]

theorem gmul_xor_left (a c b : Byte) : gmul (a ^^^ c) b = gmul a b ^^^ gmul c b :=
  gmulLoop_xor 8 0 0 a c b

theorem gmul_xtime_left (a b : Byte) : gmul (xtime a) b = xtime (gmul a b) :=
  gmulLoop_xtime 8 0 a b

theorem gmul_zero_left (b : Byte) : gmul 0 b = 0 := by
  simpa using gmul_xor_left 0 0 b

theorem gmul_one_left : ∀ b : Byte, gmul 1 b = b := by
  decide

/-- A factor multiplied onto the result of the loop can be multiplied onto its operands instead. -/
theorem gmul_gmulLoop (n : Nat) (p a c b : Byte) :
    gmul (gmulLoop n p a c) b = gmulLoop n (gmul p b) (gmul a b) c := by
  induction n generalizing p a c with
  | zero => rfl
  | succ n ih => simp only [gmulLoop_succ, ih, gmul_xtime_left, ← gmul_xor_left, apply_ite (gmul · b)]

theorem gmul_right_comm (a c b : Byte) : gmul (gmul a c) b = gmul (gmul a b) c := by
  have := gmul_gmulLoop 8 0 a c b
  rwa [gmul_zero_left] at this

/-- At most one Byte is inverse to `x` (41_substitution.md R113: "the unique b"). -/
theorem eq_of_gmul_eq_one {x b b' : Byte} (h : gmul x b = 1) (h' : gmul x b' = 1) : b = b' := calc
  b = gmul (gmul x b') b := by rw [h', gmul_one_left]
  _ = gmul (gmul x b) b' := gmul_right_comm x b' b
  _ = b' := by rw [h, gmul_one_left]

end Sys2Proof.Machine
end

section
/-! SUPPORT. The two tables against each other and against their construction, and with them the statements of 41_substitution.md. -/

namespace Sys2Proof.Machine

/-! ## The tables are inverse to one another -/

theorem invSbox_sbox : ∀ x : Byte, invSbox (sbox x) = x := by
  decide

theorem sbox_injective : Function.Injective sbox :=
  Function.LeftInverse.injective invSbox_sbox

theorem sbox_surjective : Function.Surjective sbox :=
  Finite.surjective_of_injective sbox_injective

theorem sbox_invSbox (y : Byte) : sbox (invSbox y) = y :=
  Function.LeftInverse.rightInverse_of_surjective invSbox_sbox sbox_surjective y

theorem invSbox_eq_iff (x y : Byte) : invSbox y = x ↔ sbox x = y :=
  ⟨fun h => h ▸ sbox_invSbox y, fun h => h ▸ invSbox_sbox x⟩

/-- Settles O23: the table check `invSbox_sbox` makes `sbox` one to one, so onto, as there are finitely many Bytes. -/
theorem substitutionTablesInverse : Obligations.SubstitutionTablesInverse :=
  ⟨fun x => ⟨invSbox_sbox x, sbox_invSbox x⟩, fun _ _ h => sbox_injective h, sbox_surjective⟩

/-! ## The construction -/

/-- The affine map that undoes `sboxAffine`: what it makes of SBOX[x] is the inverse of x. -/
def sboxAffineInv (y : Byte) : Byte := rotl8 y 1 ^^^ rotl8 y 3 ^^^ rotl8 y 6 ^^^ 0x05#8

theorem sboxAffine_sboxAffineInv : ∀ y : Byte, sboxAffine (sboxAffineInv y) = y := by
  decide

/-- The forward table holds an inverse of each Byte but 0, behind the affine map. -/
theorem gmul_sboxAffineInv_sbox : ∀ x : Byte, x ≠ 0 → gmul x (sboxAffineInv (sbox x)) = 1 := by
  decide

theorem mem_allBytes (b : Byte) : b ∈ allBytes :=
  List.mem_map.mpr ⟨b.toNat, List.mem_range.mpr b.isLt, by simp⟩

theorem gfInv_zero : gfInv 0 = 0 := rfl

/-- Where some Byte is inverse to `x`, the search of `gfInv` ends at an inverse. -/
theorem gmul_gfInv_of_exists {x b : Byte} (hx : x ≠ 0) (h : gmul x b = 1) : gmul x (gfInv x) = 1 := by
  have found : (allBytes.find? fun b => gmul x b == 1).isSome :=
    List.find?_isSome.mpr ⟨b, mem_allBytes b, by simpa using h⟩
  obtain ⟨c, hc⟩ := Option.isSome_iff_exists.mp found
  have inverse : gmul x c = 1 := by simpa using List.find?_some hc
  rwa [gfInv, if_neg hx, hc]

theorem gmul_gfInv {x : Byte} (hx : x ≠ 0) : gmul x (gfInv x) = 1 :=
  gmul_gfInv_of_exists hx (gmul_sboxAffineInv_sbox x hx)

theorem sboxAffineInv_sbox (x : Byte) : sboxAffineInv (sbox x) = gfInv x := by
  by_cases hx : x = 0
  · subst hx; rfl
  · exact eq_of_gmul_eq_one (gmul_sboxAffineInv_sbox x hx) (gmul_gfInv hx)

theorem sbox_eq_sboxConstructed (x : Byte) : sbox x = sboxConstructed x := by
  rw [sboxConstructed, ← sboxAffineInv_sbox, sboxAffine_sboxAffineInv]

theorem rotl8_eq_rotateLeft (b : Byte) {n : Nat} (hn : n < 8) : rotl8 b n = b.rotateLeft n := by
  simp [rotl8, BitVec.rotateLeft, BitVec.rotateLeftAux, Nat.mod_eq_of_lt hn]

/-- The affine map of R113 with its rotations written as those of the library. -/
theorem sboxAffine_eq_rotateLeft (b : Byte) : sboxAffine b =
    b ^^^ b.rotateLeft 1 ^^^ b.rotateLeft 2 ^^^ b.rotateLeft 3 ^^^ b.rotateLeft 4 ^^^ 0x63 := by
  simp [sboxAffine, rotl8_eq_rotateLeft]

/-- Settles O24: undoing the affine map on SBOX[x] gives an inverse of x, and x has no other. -/
theorem substitutionConstruction : Obligations.SubstitutionConstruction := by
  refine ⟨gfInv_zero, fun x hx => ⟨gmul_gfInv hx, fun b hb => eq_of_gmul_eq_one hb (gmul_gfInv hx)⟩, ?forward,
    invSbox_eq_iff⟩
  case forward =>
    intro x
    rw [sbox_eq_sboxConstructed, sboxConstructed, sboxAffine_eq_rotateLeft]

end Sys2Proof.Machine
end

section
/-! SUPPORT. The value of a command word, for the word that a command's statement names. -/

namespace Sys2Proof

/-- A command word is `ARG * 65536 + OP` while ARG fits its 16 bits (30_encoding.md R71). -/
theorem encode_toNat (i : Instr) (harg : i.arg ≤ 65535) : (encode i).toNat = i.arg * 65536 + i.op.toNat := by
  obtain ⟨op_eq, rsv_eq, arg_eq⟩ : Laws.EncodedFields.Statement i := Laws.EncodedFields.fields_of_append _ _ _
  have op_nat : (encode i).toNat % 16 = i.op.toNat := by rw [← opField_toNat, op_eq]
  have rsv_nat : (encode i).toNat / 16 % 4096 = 0 := (rsvField_eq_zero _).mp rsv_eq
  have arg_nat : (encode i).toNat / 65536 = i.arg := by
    rw [← argField_toNat, arg_eq, BitVec.toNat_ofNat]
    omega
  omega

end Sys2Proof
end

section
/-! SUPPORT. The words of a key expansion, each from those before it, and with them the statements of 42_key_schedule.md. -/

namespace Sys2Proof.Machine

/-- Settles O25: each word function is its rule. -/
theorem wordFunctions : Obligations.WordFunctions := by
  intro a0 a1 a2 a3 b0 b1 b2 b3 j
  exact ⟨⟨rfl, rfl, rfl, rfl⟩, rfl, rfl, rfl, rfl⟩

/-! ## Key expansion -/

/-- A raw key has at least one word and no more than its schedule. -/
theorem nk_bounds {v : Variant} {p : Params} (h : v.params = some p) : 0 < p.nk ∧ p.nk ≤ p.words := by
  rcases params_cases h with ⟨-, rfl⟩ | ⟨-, rfl⟩ | ⟨-, rfl⟩ <;> decide

/-- Expansion changes no word it begins with. -/
theorem getD_expandFrom_of_lt (nk n : Nat) {w : List Word} {i : Nat} (h : i < w.length) (d : Word) :
    (expandFrom nk n w).getD i d = w.getD i d := by
  obtain ⟨added, happend⟩ := prefix_expandFrom nk n w
  rw [← happend, List.getD_append w added d i h]

/-- The words it begins with come first in an expansion. -/
theorem take_length_expandFrom (nk n : Nat) (w : List Word) : (expandFrom nk n w).take w.length = w :=
  (List.prefix_iff_eq_take.mp (prefix_expandFrom nk n w)).symm

/-- Each word that expansion adds is `nextWord` of those before it. -/
theorem getD_expandFrom_of_ge (nk n : Nat) (w : List Word) {i : Nat} (hw : w.length ≤ i) (hn : i < w.length + n) (d : Word) :
    (expandFrom nk n w).getD i d = nextWord nk ((expandFrom nk n w).take i) := by
  induction n generalizing w with
  | zero => omega
  | succ n ih =>
    rcases hw.eq_or_lt with rfl | later
    · rw [take_length_expandFrom, expandFrom, getD_expandFrom_of_lt nk n (by simp), List.getD_append_right _ _ _ _ le_rfl]
      simp
    · exact ih (w ++ [nextWord nk w]) (by simpa using later) (by rw [List.length_append, List.length_singleton]; omega)

/-- The word after the first `i` of a list reads the list at `i - Nk` and `i - 1` (42_key_schedule.md R124). -/
theorem nextWord_take {nk i : Nat} {w : List Word} (hnk : 0 < nk) (hi : nk ≤ i) (hw : i ≤ w.length) :
    nextWord nk (w.take i) =
      wordXor (w.getD (i - nk) Word.zero) (scheduleTemp nk i (w.getD (i - 1) Word.zero)) := by
  have getD_take {j : Nat} (hj : j < i) : (w.take i).getD j Word.zero = w.getD j Word.zero := by
    simp [List.getD_eq_getElem?_getD, List.getElem?_take_of_lt hj]
  rw [nextWord, List.length_take_of_le hw, getD_take (by omega), getD_take (by omega)]

/-- Byte `j` of word `i` of the raw key is its Byte `4i + j` (20_memory.md R54). -/
theorem byteOf_getD_keyWords (key : List Byte) {nk i j : Nat} (hi : i < nk) (hj : j < 4) :
    byteOf ((keyWords key nk).getD i Word.zero) j = key.getD (4 * i + j) 0 := by
  have word_eq : (keyWords key nk).getD i Word.zero =
      ⟨key.getD (4 * i) 0, key.getD (4 * i + 1) 0, key.getD (4 * i + 2) 0, key.getD (4 * i + 3) 0⟩ := by
    simp [keyWords, List.getD_eq_getElem?_getD, hi]
  rw [word_eq]
  match j, hj with
  | 0, _ | 1, _ | 2, _ | 3, _ => rfl

theorem length_keyExpansion {v : Variant} {p : Params} (h : v.params = some p) (key : List Byte) :
    (keyExpansion key p).length = p.words := by
  rw [keyExpansion, length_expandFrom, length_keyWords, Nat.add_sub_cancel' (nk_bounds h).2]

/-- The first Nk words of a schedule are those of the raw key (42_key_schedule.md R125). -/
theorem getD_keyExpansion_of_lt (key : List Byte) {p : Params} {i : Nat} (hi : i < p.nk) :
    (keyExpansion key p).getD i Word.zero = (keyWords key p.nk).getD i Word.zero :=
  getD_expandFrom_of_lt _ _ (by rwa [length_keyWords]) _

/-- Each further word of a schedule is w[i-Nk] plus what R124 makes of w[i-1]. -/
theorem getD_keyExpansion_of_ge {v : Variant} {p : Params} (h : v.params = some p) (key : List Byte) {i : Nat}
    (hnk : p.nk ≤ i) (hi : i < p.words) :
    (keyExpansion key p).getD i Word.zero =
      wordXor ((keyExpansion key p).getD (i - p.nk) Word.zero)
        (scheduleTemp p.nk i ((keyExpansion key p).getD (i - 1) Word.zero)) := by
  rw [← nextWord_take (nk_bounds h).1 hnk (by rw [length_keyExpansion h]; omega)]
  exact getD_expandFrom_of_ge _ _ _ (by rwa [length_keyWords]) (by rw [length_keyWords]; omega) _

/-- Settles O26: expansion keeps the words of the raw key and adds `nextWord` of those it has, as often as Nb·(Nr+1) asks. -/
theorem keyExpansionRecurrence : Obligations.KeyExpansionRecurrence := by
  intro v p key hp _
  refine ⟨length_keyExpansion hp key, ?rawKey, fun _ => getD_keyExpansion_of_ge hp key⟩
  case rawKey =>
    intro i j hi hj
    rw [getD_keyExpansion_of_lt key hi, byteOf_getD_keyWords key hi hj]

/-! ## EXPAND_KEY -/

/-- Without a variant EXPAND_KEY raises InvalidKeyVariant (60_exceptions.md R210). -/
theorem execExpandKey_of_no_variant {s : State} (h : s.var = .none) (arg : Nat) :
    execExpandKey arg s = .next (s.raise .invalidKeyVariant) := by
  simp [execExpandKey, checkKey, h, Variant.params]

/-- A length that is not the variant's makes EXPAND_KEY raise InvalidKeyLength (60_exceptions.md R210). -/
theorem execExpandKey_of_wrong_length {s : State} {p : Params} (h : s.var.params = some p) {arg : Nat} (harg : arg ≠ 4 * p.nk) :
    execExpandKey arg s = .next (s.raise .invalidKeyLength) := by
  simp [execExpandKey, checkKey, h, harg]

/-- A key of the variant's length is expanded into KS (42_key_schedule.md R129). -/
theorem execExpandKey_of_ok {s : State} {p : Params} (h : s.var.params = some p) :
    execExpandKey (4 * p.nk) s = .next (s.loadSchedule (keyExpansion (s.rawKey p.nk) p) p.words).succeed := by
  rw [execExpandKey, checkKey_eq_ok.mpr ⟨h, rfl⟩]

/-- Settles O10: the checks decide between two raised errors and a schedule in KS, of which `getElem_storeWords` says each word. -/
theorem expandKeyLoadsSchedule : Obligations.ExpandKeyLoadsSchedule := by
  intro arg s
  refine ⟨fun h => execExpandKey_of_no_variant h arg, fun p hp harg => execExpandKey_of_wrong_length hp harg, ?loads,
    encode_toNat (.expandKey arg)⟩
  case loads =>
    rintro p hp rfl
    refine ⟨storeWords (keyExpansion (s.rawKey p.nk) p) p.words s.ks, ?_, getElem_storeWords _ _ _⟩
    rw [exec, execExpandKey_of_ok hp, State.loadSchedule_succeed_eq]

end Sys2Proof.Machine
end

section
/-! SUPPORT. The round primitives byte by byte and on a 128-bit bus, and with them the statements of 43_round_transform.md. -/

namespace Sys2Proof.Machine

/-! ## AddRoundKey -/

@[simp] theorem getElem_addRoundKey (S K : Block) (k : Nat) (h : k < 16) : (addRoundKey S K)[k] = S[k] ^^^ K[k] := by
  simp [addRoundKey, entry, Nat.div_add_mod]

/-- Adding the same key again takes it off. -/
@[simp] theorem addRoundKey_addRoundKey (S K : Block) : addRoundKey (addRoundKey S K) K = S := by
  ext k h : 1
  rw [getElem_addRoundKey, getElem_addRoundKey, BitVec.xor_assoc, BitVec.xor_self, BitVec.xor_zero]

/-- In a round up to 14 the four words of the round key are words of KS (43_round_transform.md R140). -/
theorem roundKeyWord_eq (ks : Vector Word 60) {r : Nat} (hr : r ≤ 14) (c : Fin 4) :
    roundKeyWord ks r c = ks[4 * r + c.val] := by
  have inKs : 4 * r + c.val < 60 := by omega
  simp [roundKeyWord, Vector.getD, inKs]

theorem getElem_roundKey (ks : Vector Word 60) {r c j : Nat} (hr : r ≤ 14) (hc : c < 4) (hj : j < 4) :
    (roundKey ks r)[4 * c + j] = byteOf ks[4 * r + c] j := by
  have row : (4 * c + j) % 4 = j := by omega
  have col : (4 * c + j) / 4 = c := by omega
  simp [roundKey, roundKeyWord_eq ks hr, row, col]

/-- Settles O28: the bytes of the sum and of the flattened key, and that a key added twice cancels. -/
theorem addRoundKeyFormula : Obligations.AddRoundKeyFormula := by
  intro S K ks r hr
  refine ⟨fun c j hc hj => ?_, addRoundKey_addRoundKey S K⟩
  rw [getElem_addRoundKey, getElem_roundKey ks hr hc hj]

/-! ## MixColumns -/

/-- Byte `i` of a column times the polynomial p3 x^3 + p2 x^2 + p1 x + p0, modulo x^4 + 1 (43_round_transform.md R148). -/
def columnProduct (p0 p1 p2 p3 : Byte) (c : Word) (i : Nat) : Byte :=
  gmul p0 (byteOf c i) ^^^ gmul p1 (byteOf c ((i + 3) % 4)) ^^^ gmul p2 (byteOf c ((i + 2) % 4)) ^^^
    gmul p3 (byteOf c ((i + 1) % 4))

theorem byteOf_mixColumn (c : Word) {i : Nat} (hi : i < 4) :
    byteOf (mixColumn c) i = columnProduct 0x02 0x01 0x01 0x03 c i := by
  match i, hi with
  | 0, _ | 1, _ | 2, _ | 3, _ =>
    simp only [columnProduct, mixColumn, gmul_one_left, byteOf]
    ac_rfl

theorem byteOf_invMixColumn (c : Word) {i : Nat} (hi : i < 4) :
    byteOf (invMixColumn c) i = columnProduct 0x0e 0x09 0x0d 0x0b c i := by
  match i, hi with
  | 0, _ | 1, _ | 2, _ | 3, _ =>
    simp only [columnProduct, invMixColumn, byteOf]
    ac_rfl

/-- Settles O33: each equation of a column is its row of the cyclic product, the factor {01} left out. -/
theorem mixColumnsPolynomial : Obligations.MixColumnsPolynomial :=
  fun c _ hi => ⟨byteOf_mixColumn c hi, byteOf_invMixColumn c hi⟩

/-! ## The 128-bit buses -/

/-- A bus with one more byte moved in at its least significant end, as `busOfBlock` does. -/
def pushByte (bus : BitVec 128) (b : Byte) : BitVec 128 := (bus <<< 8) ||| b.setWidth 128

theorem extractLsb'_pushByte_zero (bus : BitVec 128) (b : Byte) : (pushByte bus b).extractLsb' 0 8 = b := by
  apply BitVec.eq_of_getLsbD_eq
  intro i hi
  simp [pushByte, hi, show i < 128 by omega]

theorem extractLsb'_pushByte_add (bus : BitVec 128) (b : Byte) {n : Nat} (hn : n + 16 ≤ 128) :
    (pushByte bus b).extractLsb' (n + 8) 8 = bus.extractLsb' n 8 := by
  apply BitVec.eq_of_getLsbD_eq
  intro i hi
  have moved : n + 8 + i < 128 ∧ n + i < 128 ∧ ¬n + 8 + i < 8 ∧ n + 8 + i - 8 = n + i := by omega
  simp [pushByte, hi, moved, BitVec.getLsbD_of_ge b (n + 8 + i) (by omega)]

/-- The head of the list is moved in last, so its byte `i` is byte `i` of the bus from the least significant end. -/
theorem extractLsb'_foldr_pushByte (l : List Byte) (hl : l.length ≤ 16) (i : Nat) (hi : i < l.length) :
    (l.foldr (fun b bus => pushByte bus b) 0).extractLsb' (8 * i) 8 = l[i] := by
  induction l generalizing i with
  | nil => simp at hi
  | cons b l ih =>
    rw [List.length_cons] at hl hi
    cases i with
    | zero => exact extractLsb'_pushByte_zero _ b
    | succ i =>
      have later := ih (by omega) i (by omega)
      rw [List.foldr_cons, Nat.mul_succ, extractLsb'_pushByte_add _ b (by omega), later, List.getElem_cons_succ]

theorem busOfBlock_eq_foldr (S : Block) : busOfBlock S = S.toList.reverse.foldr (fun b bus => pushByte bus b) 0 := by
  rw [List.foldr_reverse]
  rfl

@[simp] theorem busByte_busOfBlock (S : Block) (k : Nat) (h : k < 16) : busByte (busOfBlock S) k = S[k] := by
  have place : 120 - 8 * k = 8 * (15 - k) := by omega
  have mirrored : 15 - (15 - k) = k := by omega
  rw [busByte, busOfBlock_eq_foldr, place, extractLsb'_foldr_pushByte _ (by simp) (15 - k) (by simp; omega)]
  simp [mirrored]

/-- Two buses with the same 16 bytes are equal. -/
theorem bus_ext_busByte {v w : BitVec 128} (h : ∀ k, k < 16 → busByte v k = busByte w k) : v = w := by
  apply BitVec.eq_of_getLsbD_eq
  intro i hi
  have bit_eq (u : BitVec 128) : u.getLsbD i = (busByte u (15 - i / 8)).getLsbD (i % 8) := by
    have place : 120 - 8 * (15 - i / 8) + i % 8 = i := by omega
    simp [busByte, place, Nat.mod_lt]
  rw [bit_eq v, bit_eq w, h _ (by omega)]

@[simp] theorem getElem_blockOfBus (v : BitVec 128) (k : Nat) (h : k < 16) : (blockOfBus v)[k] = busByte v k := by
  simp [blockOfBus]

@[simp] theorem blockOfBus_busOfBlock (S : Block) : blockOfBus (busOfBlock S) = S := by
  ext k h : 1
  rw [getElem_blockOfBus, busByte_busOfBlock]

theorem busOfBlock_blockOfBus (v : BitVec 128) : busOfBlock (blockOfBus v) = v :=
  bus_ext_busByte fun k hk => by rw [busByte_busOfBlock _ k hk, getElem_blockOfBus]

/-- Settles O56: a block goes to the bus and comes back, so a port has its primitive's inputs and result. -/
theorem portsComputePrimitives : Obligations.PortsComputePrimitives := by
  refine ⟨busByte_busOfBlock, busOfBlock_blockOfBus, fun S K => ⟨?addKey, ?sub, ?invSub, ?shift, ?invShift, ?mix, ?invMix⟩⟩
  case addKey => simp [addRoundKeyPort]
  case sub | invSub => simp [subBytesPort]
  case shift | invShift => simp [shiftRowsPort]
  case mix | invMix => simp [mixColumnsPort]

end Sys2Proof.Machine
end

section
/-! SUPPORT. The block engine: what the trace port cannot change, the commands' checks, and the states a block goes through; with them the
statements of 44_block_engine.md. -/

namespace Sys2Proof.Machine

/-- A block command, whose engine is Cipher or InvCipher: the two differ in nothing else (44_block_engine.md R163, R167). -/
def blockCommand (engine : Vector Word 60 → Nat → Block → BlockRun) (arg : Nat) (s : State) : Host.Outcome State Fault Refusal :=
  match checkBlock arg s with
  | .error e => .next (s.raise e)
  | .ok p => .next (s.finishBlock (engine s.ks p.nr s.blockIn))

theorem exec_encryptBlock (arg : Nat) (s : State) : exec (.encryptBlock arg) s = blockCommand cipher arg s := rfl

theorem exec_decryptBlock (arg : Nat) (s : State) : exec (.decryptBlock arg) s = blockCommand invCipher arg s := rfl

/-! ## The trace port -/

section TracePort

variable {s t : State}

/-- States related by `TraceBlindEq` are one state with two trace ports. -/
theorem TraceBlindEq.eq_with_port (h : TraceBlindEq s t) : { s with cfg := t.cfg, trace := t.trace } = t := by
  obtain ⟨-, herr, hbusy, hvar, hksv, hdin, hdout, hks, hinbox, hreads, hdraws⟩ := h
  simp only [herr, hbusy, hvar, hksv, hdin, hdout, hks, hinbox, hreads, hdraws]

/-- A reading of the state that no trace port enters is the same in both states. -/
theorem TraceBlindEq.observation_eq {α : Type} {read : State → α} (h : TraceBlindEq s t)
    (blind : read { s with cfg := t.cfg, trace := t.trace } = read s) : read s = read t := by
  rw [← blind, h.eq_with_port]

theorem TraceBlindEq.windowOffset (h : TraceBlindEq s t) (addr : Nat) :
    windowOffset s.cfg addr = windowOffset t.cfg addr := by
  have same_base : s.cfg.engineBase = t.cfg.engineBase := congrArg (0x200 * ·) h.windowIndex
  rw [Machine.windowOffset, Machine.windowOffset, same_base]

/-! Every update of the state keeps the relation: a field it writes takes the same value in both states. -/

theorem TraceBlindEq.raise (h : TraceBlindEq s t) (e : Error) : TraceBlindEq (s.raise e) (t.raise e) :=
  { h with err := rfl }

theorem TraceBlindEq.succeed (h : TraceBlindEq s t) : TraceBlindEq s.succeed t.succeed :=
  { h with err := rfl }

theorem TraceBlindEq.configure (h : TraceBlindEq s t) (v : Variant) : TraceBlindEq (s.configure v) (t.configure v) :=
  { h with var := rfl, ksv := rfl }

theorem TraceBlindEq.loadSchedule (h : TraceBlindEq s t) (w : List Word) (n : Nat) :
    TraceBlindEq (s.loadSchedule w n) (t.loadSchedule w n) :=
  { h with ks := congrArg (storeWords w n) h.ks, ksv := rfl }

theorem TraceBlindEq.finishBlock (h : TraceBlindEq s t) (r : BlockRun) :
    TraceBlindEq (s.finishBlock r) (t.finishBlock r) :=
  { h with dout := rfl, err := rfl }

theorem TraceBlindEq.writeDin (h : TraceBlindEq s t) (j : Fin 8) (v : Bits32) :
    TraceBlindEq (s.writeDin j v) (t.writeDin j v) :=
  { h with din := h.observation_eq (read := fun u => (u.writeDin j v).din) rfl }

theorem TraceBlindEq.observe (h : TraceBlindEq s t) (v : Bits32) : TraceBlindEq (s.observe v) (t.observe v) :=
  { h with reads := congrArg (· ++ [v]) h.reads }

theorem TraceBlindEq.withInbox (h : TraceBlindEq s t) (l : List HostAccess) :
    TraceBlindEq (s.withInbox l) (t.withInbox l) :=
  { h with inbox := rfl }

theorem TraceBlindEq.engineReset (h : TraceBlindEq s t) : TraceBlindEq s.engineReset t.engineReset where
  windowIndex := h.windowIndex
  err := rfl
  busy := rfl
  var := rfl
  ksv := rfl
  din := rfl
  dout := rfl
  ks := h.observation_eq (read := fun u => u.engineReset.ks) rfl
  inbox := h.inbox
  reads := h.reads
  draws := congrArg (· + 1) h.draws

/-! Every command, access and step keeps it, since what they read to choose a branch is the same in both states. -/

theorem TraceBlindEq.execConstruct (h : TraceBlindEq s t) (arg : Nat) :
    OutcomeRel TraceBlindEq (execConstruct arg s) (execConstruct arg t) := by
  unfold Machine.execConstruct
  cases Variant.ofKeyBits arg with
  | none => exact .next (h.raise _)
  | some v => exact .next (h.configure v).succeed

theorem TraceBlindEq.execExpandKey (h : TraceBlindEq s t) (arg : Nat) :
    OutcomeRel TraceBlindEq (execExpandKey arg s) (execExpandKey arg t) := by
  have same_check : checkKey arg s = checkKey arg t := h.observation_eq rfl
  have same_key : s.rawKey = t.rawKey := h.observation_eq rfl
  rw [Machine.execExpandKey, Machine.execExpandKey, same_check, same_key]
  cases checkKey arg t with
  | error e => exact .next (h.raise e)
  | ok p => exact .next (h.loadSchedule _ _).succeed

theorem TraceBlindEq.blockCommand (h : TraceBlindEq s t) (engine : Vector Word 60 → Nat → Block → BlockRun) (arg : Nat) :
    OutcomeRel TraceBlindEq (blockCommand engine arg s) (blockCommand engine arg t) := by
  have same_check : checkBlock arg s = checkBlock arg t := h.observation_eq rfl
  have same_input : s.blockIn = t.blockIn := h.observation_eq rfl
  rw [Machine.blockCommand, Machine.blockCommand, same_check, same_input, h.ks]
  cases checkBlock arg t with
  | error e => exact .next (h.raise e)
  | ok p => exact .next (h.finishBlock _)

theorem TraceBlindEq.execute (h : TraceBlindEq s t) (v : Bits32) :
    OutcomeRel TraceBlindEq (execute v s) (execute v t) := by
  unfold Machine.execute
  cases decode v with
  | illegal r => exact .next (h.raise _)
  | command i =>
    cases i with
    | construct arg => exact h.execConstruct arg
    | expandKey arg => exact h.execExpandKey arg
    | encryptBlock arg => exact h.blockCommand cipher arg
    | decryptBlock arg => exact h.blockCommand invCipher arg

theorem TraceBlindEq.memWrite (h : TraceBlindEq s t) (off : Nat) (v : Bits32) :
    OutcomeRel TraceBlindEq (memWrite off v s) (memWrite off v t) := by
  unfold Machine.memWrite
  cases regAt off with
  | cmd => exact h.execute v
  | din j => exact .next (h.writeDin j v)
  | status | dout _ | ks _ | reserved => exact .next h

theorem TraceBlindEq.hostRead (h : TraceBlindEq s t) (addr width : Nat) :
    OutcomeRel TraceBlindEq (hostRead addr width s) (hostRead addr width t) := by
  unfold Machine.hostRead
  rw [h.windowOffset, h.busy]
  cases Machine.windowOffset t.cfg addr with
  | none => exact .refused _
  | some off =>
    have same_value : memRead s off = memRead t off := h.observation_eq (read := fun u => memRead u off) rfl
    dsimp only
    split_ifs
    · exact .fault _
    · exact .fault _
    · rw [same_value]
      exact .next (h.observe _)

theorem TraceBlindEq.hostWrite (h : TraceBlindEq s t) (addr width : Nat) (v : Bits32) :
    OutcomeRel TraceBlindEq (hostWrite addr width v s) (hostWrite addr width v t) := by
  unfold Machine.hostWrite
  rw [h.windowOffset, h.busy]
  cases Machine.windowOffset t.cfg addr with
  | none => exact .refused _
  | some off =>
    dsimp only
    split_ifs
    · exact .fault _
    · exact .fault _
    · exact h.memWrite off v

theorem TraceBlindEq.step (h : TraceBlindEq s t) : OutcomeRel TraceBlindEq (step s) (step t) := by
  unfold Machine.step takeAccess
  rw [h.inbox]
  cases t.inbox with
  | nil => exact .next h
  | cons a rest =>
    have taken := h.withInbox rest
    cases a with
    | read addr width => exact taken.hostRead addr width
    | write addr width v => exact taken.hostWrite addr width v
    | reset => exact .next taken.engineReset

end TracePort

/-- Settles O39: every step keeps `TraceBlindEq`, and neither CONSTRUCT nor EXPAND_KEY emits. -/
theorem tracePortNeverChangesState : Obligations.TracePortNeverChangesState := by
  refine ⟨fun s t h => h.step, ?noEvents⟩
  case noEvents =>
    rintro arg s t (hexec | hexec)
    · obtain ⟨-, next⟩ | ⟨v, -, next⟩ := execConstruct_cases arg s
      · cases next.symm.trans hexec
        rw [State.raise_trace]
      · cases next.symm.trans hexec
        rw [State.succeed_trace, State.configure_trace]
    · obtain ⟨e, -, next⟩ | ⟨p, -, -, next⟩ := execExpandKey_cases arg s
      · cases next.symm.trans hexec
        rw [State.raise_trace]
      · cases next.symm.trans hexec
        rw [State.succeed_trace, State.loadSchedule_trace]

/-! ## CONSTRUCT -/

theorem execConstruct_of_variant {arg : Nat} {v : Variant} (h : Variant.ofKeyBits arg = some v) (s : State) :
    execConstruct arg s = .next { s with var := v, ksv := false, err := 0 } := by
  simp only [execConstruct, h, State.configure_succeed_eq]

theorem ofKeyBits_eq_none {arg : Nat} (h128 : arg ≠ 128) (h192 : arg ≠ 192) (h256 : arg ≠ 256) :
    Variant.ofKeyBits arg = none := by
  simp [Variant.ofKeyBits, h128, h192, h256]

/-- A key size outside the three makes CONSTRUCT raise InvalidKeyVariant (44_block_engine.md R160). -/
theorem execConstruct_of_no_variant {arg : Nat} (h : Variant.ofKeyBits arg = none) (s : State) :
    execConstruct arg s = .next (s.raise .invalidKeyVariant) := by
  rw [execConstruct, h]

/-- CONSTRUCT that ends without an error has configured the variant of its operand and made the schedule invalid. -/
theorem execConstruct_next_ok {arg : Nat} {s t : State} (h : execConstruct arg s = .next t) (herr : t.err = 0) :
    Variant.ofKeyBits arg = some t.var ∧ t.ksv = false := by
  rcases execConstruct_cases arg s with ⟨-, hs⟩ | ⟨v, hv, hs⟩ <;> cases hs.symm.trans h
  · exact absurd herr (Error.code_ne_zero .invalidKeyVariant)
  · exact ⟨hv, rfl⟩

/-- The code of the variant that a key size names (10_state.md R25). -/
theorem code_of_ofKeyBits {arg : Nat} {v : Variant} (h : Variant.ofKeyBits arg = some v) :
    v.code = if arg = 128 then 0b01 else if arg = 192 then 0b10 else 0b11 := by
  rcases ofKeyBits_eq_some.mp h with ⟨rfl, rfl⟩ | ⟨rfl, rfl⟩ | ⟨rfl, rfl⟩ <;> rfl

/-- Settles O9: the operand decides between the three variants and the error, and the registers read what the new state holds. -/
theorem constructSelectsVariant : Obligations.ConstructSelectsVariant := by
  intro arg s
  refine ⟨fun h => execConstruct_of_variant (by rw [h]; rfl) s, fun h => execConstruct_of_variant (by rw [h]; rfl) s,
    fun h => execConstruct_of_variant (by rw [h]; rfl) s,
    fun h128 h192 h256 => execConstruct_of_no_variant (ofKeyBits_eq_none h128 h192 h256) s, ?registers,
    encode_toNat (.construct arg)⟩
  case registers =>
    intro t hexec herr
    obtain ⟨hvar, hksv⟩ := execConstruct_next_ok hexec herr
    refine ⟨?_, fun i => memRead_ks_of_ksv_false hksv⟩
    rw [memRead_status, statusWord_var, code_of_ofKeyBits hvar]

/-! ## ENCRYPT_BLOCK and DECRYPT_BLOCK: the checks of 60_exceptions.md R210 in their order, then the engine -/

section BlockCommands

variable {s : State} {arg : Nat} {engine : Vector Word 60 → Nat → Block → BlockRun}

theorem params_of_ne_none {v : Variant} (h : v ≠ .none) : ∃ p, v.params = some p := by
  cases v with
  | none => exact absurd rfl h
  | aes128 | aes192 | aes256 => exact ⟨_, rfl⟩

theorem blockCommand_of_no_variant (h : s.var = .none) :
    blockCommand engine arg s = .next (s.raise .invalidKeyVariant) := by
  simp [blockCommand, checkBlock, h, Variant.params]

theorem blockCommand_of_wrong_length (h : s.var ≠ .none) (harg : arg ≠ 16) :
    blockCommand engine arg s = .next (s.raise .invalidBlockLength) := by
  obtain ⟨p, hp⟩ := params_of_ne_none h
  simp [blockCommand, checkBlock, hp, harg]

theorem blockCommand_of_no_schedule (h : s.var ≠ .none) (harg : arg = 16) (hksv : s.ksv = false) :
    blockCommand engine arg s = .next (s.raise .keyNotExpanded) := by
  obtain ⟨p, hp⟩ := params_of_ne_none h
  simp [blockCommand, checkBlock, hp, harg, hksv]

theorem blockCommand_of_ok {p : Params} (hp : s.var.params = some p) (harg : arg = 16) (hksv : s.ksv = true) :
    blockCommand engine arg s = .next (s.finishBlock (engine s.ks p.nr s.blockIn)) := by
  rw [blockCommand, checkBlock_eq_ok.mpr ⟨hp, harg, hksv⟩]

end BlockCommands

/-- Settles O11: the checks raise their errors in order, and past them Cipher runs on `blockIn`. -/
theorem encryptBlockRunsCipher : Obligations.EncryptBlockRunsCipher := by
  intro arg s
  rw [exec_encryptBlock]
  refine ⟨blockCommand_of_no_variant, blockCommand_of_wrong_length, blockCommand_of_no_schedule, ?runs,
    encode_toNat (.encryptBlock arg)⟩
  case runs =>
    intro p hp harg hksv
    refine ⟨s.blockIn, s.blockIn_getElem, ?_⟩
    rw [blockCommand_of_ok hp harg hksv, State.finishBlock_eq]

/-- Settles O12: the checks raise their errors in order, and past them InvCipher runs on `blockIn`. -/
theorem decryptBlockRunsInvCipher : Obligations.DecryptBlockRunsInvCipher := by
  intro arg s
  rw [exec_decryptBlock]
  refine ⟨blockCommand_of_no_variant, blockCommand_of_wrong_length, blockCommand_of_no_schedule, ?runs,
    encode_toNat (.decryptBlock arg)⟩
  case runs =>
    intro p hp harg hksv
    refine ⟨s.blockIn, s.blockIn_getElem, ?_⟩
    rw [blockCommand_of_ok hp harg hksv, State.finishBlock_eq]

/-! ## The states a block goes through -/

/-- The states of a run of `nr` rounds: the one it starts with, those after its middle rounds, and the one after its last round. -/
def roundStates (nr : Nat) (start : Block) (middle : Nat → Block → Block) (last : Block → Block) : Nat → Block
  | 0 => start
  | k + 1 => (if k + 1 < nr then middle (k + 1) else last) (roundStates nr start middle last k)

/-- A run that is in state `S k` and has emitted the events numbered 0 to `k`, each with the state of its number. -/
def runThrough (d : Dir) (S : Nat → Block) (k : Nat) : BlockRun := ⟨S k, (List.range (k + 1)).map fun i => ⟨d, i, S i⟩⟩

section Rounds

variable {d : Dir} {nr : Nat} {middle : Nat → Block → Block} {last : Block → Block}

theorem roundStates_middle {start : Block} {k : Nat} (hk : 1 ≤ k) (hlt : k < nr) :
    roundStates nr start middle last k = middle k (roundStates nr start middle last (k - 1)) := by
  obtain ⟨j, rfl⟩ := Nat.exists_eq_add_of_le' hk
  rw [roundStates, if_pos hlt, Nat.add_sub_cancel]

theorem roundStates_last {start : Block} (hnr : 1 ≤ nr) :
    roundStates nr start middle last nr = last (roundStates nr start middle last (nr - 1)) := by
  obtain ⟨j, rfl⟩ := Nat.exists_eq_add_of_le' hnr
  rw [roundStates, if_neg (lt_irrefl _), Nat.add_sub_cancel]

/-- A round that leads from one state to the next, under the next event number, takes the run one state on. -/
theorem advance_runThrough {S : Nat → Block} {k : Nat} {f : Block → Block} (h : S (k + 1) = f (S k)) :
    (runThrough d S k).advance d (k + 1) f = runThrough d S (k + 1) := by
  simp [runThrough, BlockRun.advance, ← h, List.range_succ (n := k + 1)]

/-- The rounds 1 to `n` take a run from state 0 to state `n`, if each is numbered by its place and leads to the next state. -/
theorem foldl_advance_runThrough {S : Nat → Block} {n : Nat} {num : Nat → Nat} (hnum : ∀ k, 1 ≤ k → k ≤ n → num k = k)
    (hS : ∀ k, 1 ≤ k → k ≤ n → S k = middle k (S (k - 1))) :
    (List.range' 1 n).foldl (fun r k => r.advance d (num k) (middle k)) (runThrough d S 0) = runThrough d S n := by
  induction n with
  | zero => rfl
  | succ n ih =>
    have before := ih (fun k h1 h2 => hnum k h1 (by omega)) (fun k h1 h2 => hS k h1 (by omega))
    have round_num := hnum (n + 1) (by omega) le_rfl
    rw [List.range'_1_concat, List.foldl_append, before, List.foldl_cons, List.foldl_nil, Nat.add_comm 1 n, round_num]
    exact advance_runThrough (hS (n + 1) (by omega) le_rfl)

/-- First round, middle rounds and last round run through the states that `roundStates` lists. -/
theorem rounds_eq_runThrough {num : Nat → Nat} (hnr : 1 ≤ nr) (hnum : ∀ k, 1 ≤ k → k < nr → num k = k)
    (input : Block) (first : Block → Block) :
    ((middleRounds nr).foldl (fun r k => r.advance d (num k) (middle k)) (BlockRun.advance ⟨input, []⟩ d 0 first)).advance
      d nr last = runThrough d (roundStates nr (first input) middle last) nr := by
  obtain ⟨n, rfl⟩ := Nat.exists_eq_add_of_le' hnr
  have through_middle : (middleRounds (n + 1)).foldl (fun r k => r.advance d (num k) (middle k))
      (BlockRun.advance ⟨input, []⟩ d 0 first) = runThrough d (roundStates (n + 1) (first input) middle last) n :=
    foldl_advance_runThrough (fun k h1 h2 => hnum k h1 (Nat.lt_succ_of_le h2))
      fun k h1 h2 => roundStates_middle h1 (Nat.lt_succ_of_le h2)
  rw [through_middle]
  exact advance_runThrough (roundStates_last hnr)

end Rounds

/-- The middle rounds in descending order are Nr less each of them in ascending order (44_block_engine.md R168). -/
theorem reverse_middleRounds (nr : Nat) : (middleRounds nr).reverse = (middleRounds nr).map (nr - ·) := by
  apply List.ext_getElem
  · simp
  · intro i hi _
    simp only [middleRounds, List.length_reverse, List.length_range'] at hi
    simp only [middleRounds, List.getElem_reverse, List.getElem_map, List.getElem_range', List.length_range']
    omega

/-- The states of Cipher (44_block_engine.md R164). -/
def encStates (ks : Vector Word 60) (nr : Nat) (input : Block) : Nat → Block :=
  roundStates nr (addRoundKey input (roundKey ks 0)) (encRound ks) (encFinal ks nr)

/-- The states of InvCipher, whose middle round `k` uses the round key Nr - `k` (44_block_engine.md R168). -/
def decStates (ks : Vector Word 60) (nr : Nat) (input : Block) : Nat → Block :=
  roundStates nr (addRoundKey input (roundKey ks nr)) (fun k => decRound ks (nr - k)) (decFinal ks)

theorem cipher_eq_runThrough (ks : Vector Word 60) {nr : Nat} (hnr : 1 ≤ nr) (input : Block) :
    cipher ks nr input = runThrough .enc (encStates ks nr input) nr :=
  rounds_eq_runThrough hnr (fun _ _ _ => rfl) input fun S => addRoundKey S (roundKey ks 0)

theorem invCipher_eq_runThrough (ks : Vector Word 60) {nr : Nat} (hnr : 1 ≤ nr) (input : Block) :
    invCipher ks nr input = runThrough .dec (decStates ks nr input) nr := by
  simp only [invCipher, reverse_middleRounds, List.foldl_map]
  exact rounds_eq_runThrough hnr (fun k _ hk => Nat.sub_sub_self hk.le) input fun S => addRoundKey S (roundKey ks nr)

/-- Settles O34: Cipher runs through `encStates`. -/
theorem cipherRoundSequence : Obligations.CipherRoundSequence := by
  intro ks nr input hnr
  rw [cipher_eq_runThrough ks hnr]
  exact ⟨encStates ks nr input, rfl, fun _ => roundStates_middle, roundStates_last hnr, rfl, rfl⟩

/-- Settles O35: InvCipher runs through `decStates`. -/
theorem invCipherRoundSequence : Obligations.InvCipherRoundSequence := by
  intro ks nr input hnr
  rw [invCipher_eq_runThrough ks hnr]
  exact ⟨decStates ks nr input, rfl, fun _ => roundStates_middle, roundStates_last hnr, rfl, rfl⟩

end Sys2Proof.Machine
end

section
/-! SUPPORT. The ERR a command leaves, as a table over its operand and the state, and with it the statements of 60_exceptions.md. -/

namespace Sys2Proof

/-- The command a word selects is the one of its OP and its ARG (30_encoding.md R71, R72). -/
theorem op_arg_of_decode_eq_command {v : Bits32} {i : Instr} (h : decode v = .command i) :
    i.op.toNat = v.toNat % 16 ∧ i.arg = v.toNat / 65536 := by
  rw [← opField_toNat, ← argField_toNat]
  unfold decode at h
  split at h
  · cases h
  · split at h <;> cases h
    case h_1 hop | h_2 hop | h_3 hop | h_4 hop => exact ⟨hop.symm, rfl⟩

/-- A word that selects a command is not illegal (30_encoding.md R75). -/
theorem not_illegal_of_decode_eq_command {v : Bits32} {i : Instr} (h : decode v = .command i) :
    ¬(v.toNat / 16 % 4096 ≠ 0 ∨ v.toNat % 16 = 0 ∨ 5 ≤ v.toNat % 16) := by
  rw [← exists_decode_eq_illegal_iff, h]
  rintro ⟨r, hr⟩
  cases hr

end Sys2Proof

namespace Sys2Proof.Machine

/-! ## A failed command -/

/-- The codes of the errors (60_exceptions.md R200). -/
theorem Error.code_cases (e : Error) : e.code = 1 ∨ e.code = 2 ∨ e.code = 3 ∨ e.code = 4 ∨ e.code = 5 := by
  cases e <;> decide

/-- A command raises an error or ends with ERR = 0. -/
theorem exec_raises_or_succeeds (i : Instr) (s : State) :
    (∃ e, exec i s = .next (s.raise e)) ∨ ∃ t, exec i s = .next t ∧ t.err = 0 := by
  rcases exec_cases i s with raises | ⟨_, _, -, -, next⟩ | ⟨_, -, -, next⟩ | ⟨_, -, -, -, next⟩ | ⟨_, -, -, -, next⟩
  · exact .inl raises
  · exact .inr ⟨_, next, State.succeed_err _⟩
  · exact .inr ⟨_, next, State.succeed_err _⟩
  · exact .inr ⟨_, next, State.finishBlock_err _ _⟩
  · exact .inr ⟨_, next, State.finishBlock_err _ _⟩

/-- A word written to CMD raises an error or ends with ERR = 0. -/
theorem execute_raises_or_succeeds (v : Bits32) (s : State) :
    (∃ e, execute v s = .next (s.raise e)) ∨ ∃ t, execute v s = .next t ∧ t.err = 0 := by
  rcases execute_cases v s with ⟨-, -, next⟩ | ⟨i, -, next⟩
  · exact .inl ⟨_, next⟩
  · rw [next]
    exact exec_raises_or_succeeds i s

/-- Settles O17: an ERR other than 0 can only come from `State.raise`, which writes a code and nothing else. -/
theorem failedCommandOnlySetsErr : Obligations.FailedCommandOnlySetsErr := by
  intro v s t hexec herr
  rcases execute_raises_or_succeeds v s with ⟨e, next⟩ | ⟨u, next, hu⟩ <;> cases next.symm.trans hexec
  · exact ⟨rfl, e.code_cases⟩
  · exact absurd hu herr

/-! ## The order of the checks, command by command (60_exceptions.md R210) -/

theorem execConstruct_err (arg : Nat) (s : State) : ∃ t, execConstruct arg s = .next t ∧
    t.err = if arg ≠ 128 ∧ arg ≠ 192 ∧ arg ≠ 256 then 2 else 0 := by
  rcases execConstruct_cases arg s with ⟨hv, next⟩ | ⟨v, hv, next⟩ <;> refine ⟨_, next, ?_⟩
  · have hall : arg ≠ 128 ∧ arg ≠ 192 ∧ arg ≠ 256 := by
      refine ⟨?_, ?_, ?_⟩ <;> rintro rfl <;> cases hv
    exact (if_pos hall).symm
  · rw [if_neg, State.succeed_err]
    rcases ofKeyBits_eq_some.mp hv with ⟨rfl, -⟩ | ⟨rfl, -⟩ | ⟨rfl, -⟩ <;> decide

theorem execExpandKey_err (arg : Nat) (s : State) : ∃ t, execExpandKey arg s = .next t ∧
    t.err = if s.var = .none then 2 else if s.var.params.map (fun p => 4 * p.nk) ≠ some arg then 3 else 0 := by
  by_cases hvar : s.var = .none
  · exact ⟨_, execExpandKey_of_no_variant hvar arg, (if_pos hvar).symm⟩
  obtain ⟨p, hp⟩ := params_of_ne_none hvar
  rw [if_neg hvar, hp, Option.map_some]
  by_cases harg : arg = 4 * p.nk
  · subst harg
    exact ⟨_, execExpandKey_of_ok hp, (if_neg (not_not.mpr rfl)).symm⟩
  · have hlen : some (4 * p.nk) ≠ some arg := fun h => harg (Option.some.inj h).symm
    exact ⟨_, execExpandKey_of_wrong_length hp harg, (if_pos hlen).symm⟩

theorem blockCommand_err (engine : Vector Word 60 → Nat → Block → BlockRun) (arg : Nat) (s : State) :
    ∃ t, blockCommand engine arg s = .next t ∧
      t.err = if s.var = .none then 2 else if arg ≠ 16 then 4 else if s.ksv = false then 5 else 0 := by
  by_cases hvar : s.var = .none
  · exact ⟨_, blockCommand_of_no_variant hvar, (if_pos hvar).symm⟩
  rw [if_neg hvar]
  by_cases harg : arg = 16
  · rw [if_neg (not_not.mpr harg)]
    cases hksv : s.ksv with
    | false => exact ⟨_, blockCommand_of_no_schedule hvar harg hksv, (if_pos rfl).symm⟩
    | true =>
      obtain ⟨p, hp⟩ := params_of_ne_none hvar
      exact ⟨_, blockCommand_of_ok hp harg hksv, by simp⟩
  · exact ⟨_, blockCommand_of_wrong_length hvar harg, (if_pos harg).symm⟩

/-- Settles O18: an illegal word raises the first error, and for each of the four OPs the table is that command's own order of checks. -/
theorem errorPriorityOrder : Obligations.ErrorPriorityOrder := by
  intro v s
  rcases execute_cases v s with ⟨r, hdec, next⟩ | ⟨i, hdec, next⟩
  · have hill := (exists_decode_eq_illegal_iff v).mp ⟨r, hdec⟩
    exact ⟨_, next, (if_pos hill).symm⟩
  obtain ⟨hop, harg⟩ := op_arg_of_decode_eq_command hdec
  rw [next, if_neg (not_illegal_of_decode_eq_command hdec), ← hop, ← harg]
  cases i with
  | construct arg => simpa [exec, Instr.op, Instr.arg] using execConstruct_err arg s
  | expandKey arg => simpa [exec, Instr.op, Instr.arg] using execExpandKey_err arg s
  | encryptBlock arg => simpa [exec_encryptBlock, Instr.op, Instr.arg] using blockCommand_err cipher arg s
  | decryptBlock arg => simpa [exec_decryptBlock, Instr.op, Instr.arg] using blockCommand_err invCipher arg s

end Sys2Proof.Machine
end

section
/-! SUPPORT. Decoding against encoding: each command has one word, and with it the statements of 30_encoding.md on command words. -/

namespace Sys2Proof

theorem wf_iff (i : Instr) : i.wf = true ↔ i.arg ≤ 65535 := by
  simp [Instr.wf]

/-- A word whose fields are RSV = 0, the OP of a command and its ARG decodes to that command (30_encoding.md R72, R76). -/
theorem decode_of_fields {v : Bits32} {i : Instr} (hrsv : rsvField v = 0) (hop : opField v = i.op)
    (harg : (argField v).toNat = i.arg) : decode v = .command i := by
  unfold decode
  rw [if_neg (not_not.mpr hrsv), hop, harg]
  cases i <;> rfl

theorem decode_encode (i : Instr) (h : i.wf = true) : decode (encode i) = .command i := by
  obtain ⟨hop, hrsv, harg⟩ : Laws.EncodedFields.Statement i := Laws.EncodedFields.fields_of_append _ _ _
  have fits := (wf_iff i).mp h
  refine decode_of_fields hrsv hop ?_
  rw [harg, BitVec.toNat_ofNat, Nat.mod_eq_of_lt (by omega)]

/-- Settles O1: the encoder puts OP, RSV = 0 and ARG where the decoder reads them, and a well-formed ARG is not cut. -/
theorem decodeInvertsEncode : Obligations.DecodeInvertsEncode :=
  decode_encode

theorem wf_of_decode {v : Bits32} {i : Instr} (h : decode v = .command i) : i.wf = true := by
  have := (op_arg_of_decode_eq_command h).2
  have := v.isLt
  exact (wf_iff i).mpr (by omega)

theorem encode_of_decode {v : Bits32} {i : Instr} (h : decode v = .command i) : encode i = v := by
  obtain ⟨hop, harg⟩ := op_arg_of_decode_eq_command h
  have legal := not_illegal_of_decode_eq_command h
  have word := encode_toNat i ((wf_iff i).mp (wf_of_decode h))
  apply BitVec.eq_of_toNat_eq
  omega

/-- A word is a command's exactly when that command can be encoded and this is its word. -/
theorem decode_eq_command_iff {v : Bits32} {i : Instr} : decode v = .command i ↔ i.wf = true ∧ encode i = v :=
  ⟨fun h => ⟨wf_of_decode h, encode_of_decode h⟩, fun ⟨hwf, hv⟩ => hv ▸ decode_encode i hwf⟩

/-- Settles O2: the fields of a word that decodes to a command fix its value. -/
theorem encodeInvertsDecode : Obligations.EncodeInvertsDecode :=
  fun _ _ => decode_eq_command_iff.mp

/-- Settles O3, by the value of a command word. -/
theorem commandWordLayout : Obligations.CommandWordLayout :=
  fun n hn => ⟨encode_toNat (.construct n) hn, encode_toNat (.expandKey n) hn, encode_toNat (.encryptBlock n) hn,
    encode_toNat (.decryptBlock n) hn⟩

/-- Settles O4: each of the eight is the encoder's word of the command it decodes to. -/
theorem tableWordsDecode : Obligations.TableWordsDecode :=
  ⟨decode_encode (.construct 128) rfl, decode_encode (.construct 192) rfl, decode_encode (.construct 256) rfl,
    decode_encode (.expandKey 16) rfl, decode_encode (.expandKey 24) rfl, decode_encode (.expandKey 32) rfl,
    decode_encode (.encryptBlock 16) rfl, decode_encode (.decryptBlock 16) rfl⟩

theorem decode_of_decodeTableWord {nbits w : Nat} {i : Instr} (h : decodeTableWord nbits w = some i) :
    decode (BitVec.ofNat 32 (w % 2 ^ nbits)) = .command i := by
  unfold decodeTableWord at h
  split_ifs at h
  cases hd : decode (BitVec.ofNat 32 (w % 2 ^ nbits)) with
  | illegal r => simp [hd] at h
  | command j => simpa [hd] using h

end Sys2Proof
end

section
/-! SUPPORT. What a step does with the oldest access, access by access and as one list of effects, and with it the statements of
20_memory.md and 70_reset_and_hazards.md on which accesses have a step. -/

namespace Sys2Proof.Machine

/-! ## The outcome of a pending access -/

section PendingAccess

variable {s : State} {addr width off : Nat} {v : Bits32} {rest : List HostAccess}

theorem step_of_empty (h : s.inbox = []) : step s = .next s := by
  simp [step, takeAccess, h]

theorem step_of_read (h : s.inbox = .read addr width :: rest) : step s = hostRead addr width (s.withInbox rest) := by
  simp [step, takeAccess, h, hostAccess]

theorem step_of_write (h : s.inbox = .write addr width v :: rest) :
    step s = hostWrite addr width v (s.withInbox rest) := by
  simp [step, takeAccess, h, hostAccess]

/-- A register does not read which accesses are pending. -/
@[simp] theorem memRead_withInbox (s : State) (l : List HostAccess) (off : Nat) :
    memRead (s.withInbox l) off = memRead s off := rfl

theorem admitted_eq_true_iff : admitted off width = true ↔ width = 4 ∧ off % 4 = 0 := by
  simp [admitted]

theorem admitted_of_aligned (h : off % 4 = 0) : admitted off 4 = true :=
  admitted_eq_true_iff.mpr ⟨rfl, h⟩

variable (hoff : off < 0x200) (haligned : off % 4 = 0)
include hoff haligned

/-- An admitted read returns the register's value (20_memory.md R57). -/
theorem step_of_admitted_read (h : s.inbox = .read (s.cfg.engineBase + off) 4 :: rest) (hbusy : s.busy = true → off = 4) :
    step s = .next ((s.withInbox rest).observe (memRead s off)) := by
  have allowed : ¬(s.busy = true ∧ regAt off ≠ .status) := fun ⟨hb, hne⟩ => hne (regAt_eq_status.mpr (hbusy hb))
  rw [step_of_read h]
  simp [hostRead, windowOffset_base_add _ hoff, admitted_of_aligned haligned, allowed]

/-- While BUSY = 1 a read of another register than STATUS has no step (70_reset_and_hazards.md R240). -/
theorem step_of_busy_read (h : s.inbox = .read (s.cfg.engineBase + off) 4 :: rest) (hbusy : s.busy = true) (hne : off ≠ 4) :
    step s = .fault .accessWhileBusy := by
  have not_status : regAt off ≠ .status := fun hs => hne (regAt_eq_status.mp hs)
  rw [step_of_read h]
  simp [hostRead, windowOffset_base_add _ hoff, admitted_of_aligned haligned, hbusy, not_status]

/-- A write admitted while BUSY = 0 does what `memWrite` does (20_memory.md R58). -/
theorem step_of_admitted_write (h : s.inbox = .write (s.cfg.engineBase + off) 4 v :: rest) (hbusy : s.busy = false) :
    step s = memWrite off v (s.withInbox rest) := by
  rw [step_of_write h]
  simp [hostWrite, windowOffset_base_add _ hoff, admitted_of_aligned haligned, hbusy]

/-- While BUSY = 1 a write has no step (70_reset_and_hazards.md R240). -/
theorem step_of_busy_write (h : s.inbox = .write (s.cfg.engineBase + off) 4 v :: rest) (hbusy : s.busy = true) :
    step s = .fault .accessWhileBusy := by
  rw [step_of_write h]
  simp [hostWrite, windowOffset_base_add _ hoff, admitted_of_aligned haligned, hbusy]

end PendingAccess

/-! ## Everything a command word and a step can do -/

/-- What writing the word `v` to CMD can make of a state. -/
inductive CommandEffect (v : Bits32) (s : State) : State → Prop where
  | raise (e : Error) : CommandEffect v s (s.raise e)
  | configure {arg : Nat} {w : Variant} (hdec : decode v = .command (.construct arg)) (hw : Variant.ofKeyBits arg = some w) :
      CommandEffect v s (s.configure w).succeed
  | loadSchedule {p : Params} (hp : s.var.params = some p) (hdec : decode v = .command (.expandKey (4 * p.nk))) :
      CommandEffect v s (s.loadSchedule (keyExpansion (s.rawKey p.nk) p) p.words).succeed
  | finishBlock {p : Params} (r : BlockRun) (hp : s.var.params = some p) (hksv : s.ksv = true)
      (hdec : decode v = .command (.encryptBlock 16) ∨ decode v = .command (.decryptBlock 16)) :
      CommandEffect v s (s.finishBlock r)

/-- A word written to CMD has a next state, which is one of the effects. -/
theorem execute_effect (v : Bits32) (s : State) : ∃ t, execute v s = .next t ∧ CommandEffect v s t := by
  rcases execute_cases v s with ⟨-, -, next⟩ | ⟨i, hdec, run⟩
  · exact ⟨_, next, .raise _⟩
  rw [run]
  rcases exec_cases i s with ⟨e, next⟩ | ⟨arg, w, rfl, hw, next⟩ | ⟨p, hp, rfl, next⟩ | ⟨p, hp, hksv, rfl, next⟩ |
    ⟨p, hp, hksv, rfl, next⟩
  · exact ⟨_, next, .raise e⟩
  · exact ⟨_, next, .configure hdec hw⟩
  · exact ⟨_, next, .loadSchedule hp hdec⟩
  · exact ⟨_, next, .finishBlock _ hp hksv (.inl hdec)⟩
  · exact ⟨_, next, .finishBlock _ hp hksv (.inr hdec)⟩

theorem commandEffect_of_execute {v : Bits32} {s t : State} (h : execute v s = .next t) : CommandEffect v s t := by
  obtain ⟨u, next, effect⟩ := execute_effect v s
  cases next.symm.trans h
  exact effect

/-- What a step can make of a state. -/
inductive StepEffect (s : State) : State → Prop where
  | idle (hinbox : s.inbox = []) : StepEffect s s
  | reset {rest : List HostAccess} (hinbox : s.inbox = .reset :: rest) : StepEffect s (s.withInbox rest).engineReset
  | read {off : Nat} {rest : List HostAccess} (hinbox : s.inbox = .read (s.cfg.engineBase + off) 4 :: rest) :
      StepEffect s ((s.withInbox rest).observe (memRead s off))
  | command {v : Bits32} {rest : List HostAccess} {t : State} (hinbox : s.inbox = .write s.cfg.engineBase 4 v :: rest)
      (effect : CommandEffect v (s.withInbox rest) t) : StepEffect s t
  | storeDin {j : Fin 8} {v : Bits32} {rest : List HostAccess}
      (hinbox : s.inbox = .write (s.cfg.engineBase + (0x010 + 4 * j.val)) 4 v :: rest) :
      StepEffect s ((s.withInbox rest).writeDin j v)
  | ignoredWrite {off : Nat} {v : Bits32} {rest : List HostAccess} (hoff : off ≠ 0)
      (hinbox : s.inbox = .write (s.cfg.engineBase + off) 4 v :: rest) : StepEffect s (s.withInbox rest)

/-- At an aligned offset DIN_j stands at 0x010 + 4j and nowhere else (20_memory.md R52). -/
theorem regAt_eq_din {off : Nat} {j : Fin 8} (haligned : off % 4 = 0) : regAt off = .din j ↔ off = 0x010 + 4 * j.val := by
  refine ⟨fun h => ?_, fun h => h ▸ regAt_din j.isLt⟩
  unfold regAt at h
  split_ifs at h with _ _ range
  · obtain rfl := Reg.din.inj h
    simp only
    omega

/-- A step that completes has one of the effects. -/
theorem step_effect {s t : State} (h : step s = .next t) : StepEffect s t := by
  rcases step_next h with ⟨hinbox, rfl⟩ | ⟨a, rest, hinbox, taken⟩
  · exact .idle hinbox
  cases a with
  | reset =>
    cases taken
    exact .reset hinbox
  | read addr width =>
    obtain ⟨off, hoff, rfl, -, -, rfl⟩ := hostRead_next taken
    obtain ⟨rfl, -⟩ := windowOffset_eq_some.mp hoff
    exact .read hinbox
  | write addr width v =>
    obtain ⟨off, hoff, rfl, haligned, -, written⟩ := hostWrite_next taken
    obtain ⟨rfl, -⟩ := windowOffset_eq_some.mp hoff
    rcases memWrite_cases off v (s.withInbox rest) with ⟨rfl, run⟩ | ⟨j, hj, next⟩ | ⟨hne, -, next⟩
    · exact .command hinbox (commandEffect_of_execute (run.symm.trans written))
    · cases next.symm.trans written
      exact .storeDin ((regAt_eq_din haligned).mp hj ▸ hinbox)
    · cases next.symm.trans written
      exact .ignoredWrite hne hinbox

end Sys2Proof.Machine
end

section
/-! SUPPORT. The invariant of the machine: reset meets it and every step keeps it. -/

namespace Sys2Proof.Machine

theorem inv_of_ksv_false {s : State} (hbusy : s.busy = false) (herr : s.err.toNat ≤ 5) (hksv : s.ksv = false)
    (htrace : s.cfg.tracePresent = false → s.trace = []) : Inv s :=
  ⟨hbusy, herr, fun h => Bool.noConfusion (hksv.symm.trans h), htrace⟩

theorem inv_resetOf (c : Config) : Inv (State.resetOf c) :=
  inv_of_ksv_false rfl (by simp) rfl fun _ => rfl

theorem inv_engineReset (s : State) : Inv s.engineReset :=
  inv_of_ksv_false rfl (by simp) rfl fun _ => rfl

/-- Settles O50: after reset BUSY, ERR and KSV are 0 and there are no events. -/
theorem resetMeetsInvariant : Obligations.ResetMeetsInvariant :=
  ⟨inv_resetOf, inv_resetOf _⟩

section Updates

variable {s : State} (h : Inv s)
include h

theorem Inv.raise (e : Error) : Inv (s.raise e) :=
  { h with errLegal := e.code_le }

theorem Inv.succeed : Inv s.succeed :=
  { h with errLegal := by simp }

theorem Inv.configure (v : Variant) : Inv (s.configure v) :=
  inv_of_ksv_false h.notBusy h.errLegal rfl h.traceAbsent

theorem Inv.withInbox (l : List HostAccess) : Inv (s.withInbox l) :=
  { h with }

theorem Inv.observe (v : Bits32) : Inv (s.observe v) :=
  { h with }

theorem Inv.writeDin (j : Fin 8) (v : Bits32) : Inv (s.writeDin j v) :=
  { h with }

/-- Without a trace port a block command emits nothing, and it leaves the schedule (44_block_engine.md R166, R169, R175). -/
theorem Inv.finishBlock (r : BlockRun) : Inv (s.finishBlock r) where
  notBusy := h.notBusy
  errLegal := by simp
  scheduleValid := h.scheduleValid
  traceAbsent absent := by simpa [show s.cfg.tracePresent = false from absent] using h.traceAbsent absent

/-- Storing all KSLEN words of an expansion makes KS the schedule of its key (42_key_schedule.md R129). -/
theorem Inv.loadSchedule {p : Params} {key : List Byte} (hp : s.var.params = some p) (hkey : key.length = 4 * p.nk) :
    Inv (s.loadSchedule (keyExpansion key p) p.words) where
  notBusy := h.notBusy
  errLegal := h.errLegal
  traceAbsent := h.traceAbsent
  scheduleValid _ := by
    refine ⟨p, key, hp, hkey, fun i hi hlt => ?_⟩
    have inRange : i < (keyExpansion key p).length := by rwa [length_keyExpansion hp]
    simp [hlt, inRange]

end Updates

/-- DIN holds a whole raw key of every variant. -/
theorem length_rawKey {s : State} {p : Params} (hp : s.var.params = some p) : (s.rawKey p.nk).length = 4 * p.nk := by
  rcases params_cases hp with ⟨-, rfl⟩ | ⟨-, rfl⟩ | ⟨-, rfl⟩ <;> simp [State.rawKey]

theorem Inv.command {v : Bits32} {s t : State} (h : Inv s) (effect : CommandEffect v s t) : Inv t := by
  cases effect with
  | raise e => exact h.raise e
  | configure _ _ => exact (h.configure _).succeed
  | loadSchedule hp _ => exact (h.loadSchedule hp (length_rawKey hp)).succeed
  | finishBlock r _ _ _ => exact h.finishBlock r

/-- Settles O51: each effect of a step keeps the invariant. -/
theorem stepKeepsInvariant : Obligations.StepKeepsInvariant := by
  intro s t h hstep
  cases step_effect hstep with
  | idle _ => exact h
  | reset _ => exact inv_engineReset _
  | read _ => exact (h.withInbox _).observe _
  | command _ effect => exact (h.withInbox _).command effect
  | storeDin _ => exact (h.withInbox _).writeDin _ _
  | ignoredWrite _ _ => exact h.withInbox _

end Sys2Proof.Machine
end

section
/-! SUPPORT. KS words behind the gate of 10_state.md R33: no register shows them, and no command computes from them. -/

namespace Sys2Proof.Machine

/-! ## The engine uses the round keys 0 to Nr only -/

section RoundKeys

variable {ks ks' : Vector Word 60} {nr : Nat} (same : ∀ r, r ≤ nr → roundKey ks r = roundKey ks' r)
include same

theorem cipher_congr (input : Block) : cipher ks nr input = cipher ks' nr input := by
  have middle : ∀ (r : BlockRun), ∀ k ∈ middleRounds nr,
      r.advance .enc k (encRound ks k) = r.advance .enc k (encRound ks' k) := fun r k hk => by
    simp only [BlockRun.advance, encRound, same k (mem_middleRounds.mp hk).2.le]
  simp only [cipher, List.foldl_ext _ _ _ middle]
  simp only [BlockRun.advance, encFinal, same nr le_rfl, same 0 (Nat.zero_le nr)]

theorem invCipher_congr (input : Block) : invCipher ks nr input = invCipher ks' nr input := by
  have middle : ∀ (r : BlockRun), ∀ k ∈ (middleRounds nr).reverse,
      r.advance .dec (nr - k) (decRound ks k) = r.advance .dec (nr - k) (decRound ks' k) := fun r k hk => by
    simp only [BlockRun.advance, decRound, same k (mem_middleRounds.mp (List.mem_reverse.mp hk)).2.le]
  simp only [invCipher, List.foldl_ext _ _ _ middle]
  simp only [BlockRun.advance, decFinal, same nr le_rfl, same 0 (Nat.zero_le nr)]

end RoundKeys

/-- A variant has at most 14 rounds (00_scope.md R10). -/
theorem nr_le {v : Variant} {p : Params} (h : v.params = some p) : p.nr ≤ 14 := by
  rcases params_cases h with ⟨-, rfl⟩ | ⟨-, rfl⟩ | ⟨-, rfl⟩ <;> decide

section Gate

variable {s t : State}

/-- States related by `GateEq` are one state with two contents of KS. -/
theorem GateEq.eq_with_ks (h : GateEq s t) : { s with ks := t.ks } = t := by
  obtain ⟨hcfg, herr, hbusy, hvar, hksv, hdin, hdout, htrace, hinbox, hreads, hdraws, -⟩ := h
  simp only [hcfg, herr, hbusy, hvar, hksv, hdin, hdout, htrace, hinbox, hreads, hdraws]

/-- A reading of the state that KS does not enter is the same in both states. -/
theorem GateEq.observation_eq {α : Type} {read : State → α} (h : GateEq s t)
    (blind : read { s with ks := t.ks } = read s) : read s = read t := by
  rw [← blind, h.eq_with_ks]

theorem GateEq.readKs (h : GateEq s t) (i : Fin 60) : readKs s i = readKs t i := by
  unfold Machine.readKs
  rw [← h.ksv, ← h.var]
  split_ifs with gate
  · rw [h.visibleKs gate.1 i.val i.isLt gate.2]
  · rfl

theorem GateEq.memRead (h : GateEq s t) (off : Nat) : memRead s off = memRead t off := by
  unfold Machine.memRead
  cases regAt off with
  | ks i => exact h.readKs i
  | cmd => exact h.observation_eq (read := fun u => readReg u .cmd) rfl
  | status => exact h.observation_eq (read := fun u => readReg u .status) rfl
  | din j => exact h.observation_eq (read := fun u => readReg u (.din j)) rfl
  | dout j => exact h.observation_eq (read := fun u => readReg u (.dout j)) rfl
  | reserved => exact h.observation_eq (read := fun u => readReg u .reserved) rfl

/-- Past the gate the round keys of the variant are the same (43_round_transform.md R140). -/
theorem GateEq.roundKey (h : GateEq s t) {p : Params} (hp : s.var.params = some p) (hksv : s.ksv = true) (r : Nat)
    (hr : r ≤ p.nr) : roundKey s.ks r = roundKey t.ks r := by
  have hr14 : r ≤ 14 := hr.trans (nr_le hp)
  refine roundKey_congr fun c => ?_
  have visible : 4 * r + c.val < s.var.kslen := by
    rw [kslen_eq_words hp, Params.words, nb]
    omega
  rw [roundKeyWord_eq _ hr14, roundKeyWord_eq _ hr14]
  exact h.visibleKs hksv _ (by omega) visible

/-! Every update of the state keeps the relation. -/

theorem GateEq.raise (h : GateEq s t) (e : Error) : GateEq (s.raise e) (t.raise e) :=
  { h with err := rfl }

theorem GateEq.succeed (h : GateEq s t) : GateEq s.succeed t.succeed :=
  { h with err := rfl }

/-- CONSTRUCT closes the gate. -/
theorem GateEq.configure (h : GateEq s t) (v : Variant) : GateEq (s.configure v) (t.configure v) :=
  { h with var := rfl, ksv := rfl, visibleKs := nofun }

/-- EXPAND_KEY opens the gate on the words it stores and on no other. -/
theorem GateEq.loadSchedule (h : GateEq s t) (w : List Word) :
    GateEq (s.loadSchedule w s.var.kslen) (t.loadSchedule w s.var.kslen) :=
  { h with
    ksv := rfl
    visibleKs := fun _ i _ (hi : i < s.var.kslen) => by simp [hi] }

theorem GateEq.finishBlock (h : GateEq s t) (r : BlockRun) : GateEq (s.finishBlock r) (t.finishBlock r) :=
  { h with
    err := rfl
    dout := rfl
    trace := h.observation_eq (read := fun u => (u.finishBlock r).trace) rfl }

theorem GateEq.writeDin (h : GateEq s t) (j : Fin 8) (v : Bits32) : GateEq (s.writeDin j v) (t.writeDin j v) :=
  { h with din := h.observation_eq (read := fun u => (u.writeDin j v).din) rfl }

theorem GateEq.observe (h : GateEq s t) (v : Bits32) : GateEq (s.observe v) (t.observe v) :=
  { h with reads := congrArg (· ++ [v]) h.reads }

theorem GateEq.withInbox (h : GateEq s t) (l : List HostAccess) : GateEq (s.withInbox l) (t.withInbox l) :=
  { h with inbox := rfl }

theorem GateEq.engineReset (h : GateEq s t) : GateEq s.engineReset t.engineReset where
  cfg := h.cfg
  err := rfl
  busy := rfl
  var := rfl
  ksv := rfl
  din := rfl
  dout := rfl
  trace := rfl
  inbox := h.inbox
  reads := h.reads
  draws := congrArg (· + 1) h.draws
  visibleKs := nofun

/-! Every command, access and step keeps it: KS enters none of the checks, and the engine past them uses visible words only. -/

theorem GateEq.execConstruct (h : GateEq s t) (arg : Nat) :
    OutcomeRel GateEq (execConstruct arg s) (execConstruct arg t) := by
  unfold Machine.execConstruct
  cases Variant.ofKeyBits arg with
  | none => exact .next (h.raise _)
  | some v => exact .next (h.configure v).succeed

theorem GateEq.execExpandKey (h : GateEq s t) (arg : Nat) :
    OutcomeRel GateEq (execExpandKey arg s) (execExpandKey arg t) := by
  have same_check : checkKey arg s = checkKey arg t := h.observation_eq rfl
  have same_key : s.rawKey = t.rawKey := h.observation_eq rfl
  rw [Machine.execExpandKey, Machine.execExpandKey, ← same_check, ← same_key]
  cases hcheck : checkKey arg s with
  | error e => exact .next (h.raise e)
  | ok p =>
    dsimp only
    rw [← kslen_eq_words (checkKey_eq_ok.mp hcheck).1]
    exact .next (h.loadSchedule _).succeed

theorem GateEq.blockCommand (h : GateEq s t) {engine : Vector Word 60 → Nat → Block → BlockRun}
    (congr : ∀ {ks ks' : Vector Word 60} {nr : Nat}, (∀ r, r ≤ nr → Machine.roundKey ks r = Machine.roundKey ks' r) →
      ∀ input, engine ks nr input = engine ks' nr input) (arg : Nat) :
    OutcomeRel GateEq (blockCommand engine arg s) (blockCommand engine arg t) := by
  have same_check : checkBlock arg s = checkBlock arg t := h.observation_eq rfl
  have same_input : s.blockIn = t.blockIn := h.observation_eq rfl
  rw [Machine.blockCommand, Machine.blockCommand, ← same_check, ← same_input]
  cases hcheck : checkBlock arg s with
  | error e => exact .next (h.raise e)
  | ok p =>
    obtain ⟨hp, -, hksv⟩ := checkBlock_eq_ok.mp hcheck
    dsimp only
    rw [congr (h.roundKey hp hksv)]
    exact .next (h.finishBlock _)

theorem GateEq.execute (h : GateEq s t) (v : Bits32) : OutcomeRel GateEq (execute v s) (execute v t) := by
  unfold Machine.execute
  cases decode v with
  | illegal r => exact .next (h.raise _)
  | command i =>
    cases i with
    | construct arg => exact h.execConstruct arg
    | expandKey arg => exact h.execExpandKey arg
    | encryptBlock arg => exact h.blockCommand cipher_congr arg
    | decryptBlock arg => exact h.blockCommand invCipher_congr arg

theorem GateEq.memWrite (h : GateEq s t) (off : Nat) (v : Bits32) :
    OutcomeRel GateEq (memWrite off v s) (memWrite off v t) := by
  unfold Machine.memWrite
  cases regAt off with
  | cmd => exact h.execute v
  | din j => exact .next (h.writeDin j v)
  | status | dout _ | ks _ | reserved => exact .next h

theorem GateEq.hostRead (h : GateEq s t) (addr width : Nat) :
    OutcomeRel GateEq (hostRead addr width s) (hostRead addr width t) := by
  unfold Machine.hostRead
  rw [h.cfg, h.busy]
  cases windowOffset t.cfg addr with
  | none => exact .refused _
  | some off =>
    dsimp only
    split_ifs
    · exact .fault _
    · exact .fault _
    · rw [h.memRead off]
      exact .next (h.observe _)

theorem GateEq.hostWrite (h : GateEq s t) (addr width : Nat) (v : Bits32) :
    OutcomeRel GateEq (hostWrite addr width v s) (hostWrite addr width v t) := by
  unfold Machine.hostWrite
  rw [h.cfg, h.busy]
  cases windowOffset t.cfg addr with
  | none => exact .refused _
  | some off =>
    dsimp only
    split_ifs
    · exact .fault _
    · exact .fault _
    · exact h.memWrite off v

theorem GateEq.step (h : GateEq s t) : OutcomeRel GateEq (step s) (step t) := by
  unfold Machine.step takeAccess
  rw [h.inbox]
  cases t.inbox with
  | nil => exact .next h
  | cons a rest =>
    have taken := h.withInbox rest
    cases a with
    | read addr width => exact taken.hostRead addr width
    | write addr width v => exact taken.hostWrite addr width v
    | reset => exact .next taken.engineReset

end Gate

/-- Settles O52: both the registers and every step are the same on either side of `GateEq`. -/
theorem hiddenKsWordsNeverSeen : Obligations.HiddenKsWordsNeverSeen :=
  ⟨fun _ _ h => h.memRead, fun _ _ h => h.step⟩

end Sys2Proof.Machine
end

section
/-! SUPPORT. The laws of GF(2^8), doubling and the round constants, and with them the statements of 40_galois_field.md. -/

namespace Sys2Proof.Machine

/-! ## The laws of `gmul` -/

theorem gmul_comm (a b : Byte) : gmul a b = gmul b a := calc
  gmul a b = gmul (gmul 1 a) b := by rw [gmul_one_left]
  _ = gmul (gmul 1 b) a := gmul_right_comm 1 a b
  _ = gmul b a := by rw [gmul_one_left]

theorem gmul_xor_right (a b c : Byte) : gmul a (b ^^^ c) = gmul a b ^^^ gmul a c := by
  rw [gmul_comm, gmul_xor_left, gmul_comm b, gmul_comm c]

theorem gmul_assoc (a b c : Byte) : gmul (gmul a b) c = gmul a (gmul b c) := calc
  gmul (gmul a b) c = gmul (gmul b a) c := by rw [gmul_comm a b]
  _ = gmul (gmul b c) a := gmul_right_comm b a c
  _ = gmul a (gmul b c) := gmul_comm _ _

/-- Settles O20: the loop lets factors change places, which with the identity makes `gmul` commutative and associative. -/
theorem gmulFieldLaws : Obligations.GmulFieldLaws := by
  intro a b c
  refine ⟨gmul_comm a b, gmul_xor_right a b c, ?identity, ?zero, gmul_assoc a b c, ?inverse⟩
  case identity => rw [gmul_comm, gmul_one_left]
  case zero => rw [gmul_comm, gmul_zero_left]
  case inverse => exact fun ha => ⟨gfInv a, gmul_gfInv ha, fun b'' hb => eq_of_gmul_eq_one hb (gmul_gfInv ha)⟩

/-! ## Doubling -/

theorem xtime_eq_gmul_two (x : Byte) : xtime x = gmul x 2 := calc
  xtime x = xtime (gmul 1 x) := by rw [gmul_one_left]
  _ = gmul 2 x := (gmul_xtime_left 1 x).symm
  _ = gmul x 2 := gmul_comm 2 x

theorem xtime_toNat : ∀ x : Byte,
    (xtime x).toNat = if x.toNat < 128 then 2 * x.toNat else (2 * x.toNat - 256) ^^^ 0x1B := by
  decide

/-- Settles O21: each constant is a sum of doublings of 1, and `gmul` carries sums and doublings through. -/
theorem xtimeAndConstantProducts : Obligations.XtimeAndConstantProducts := by
  intro x
  have eq_three : (0x03 : Byte) = xtime 1 ^^^ 1 := rfl
  have eq_nine : (0x09 : Byte) = xtime (xtime (xtime 1)) ^^^ 1 := rfl
  have eq_eleven : (0x0B : Byte) = xtime (xtime (xtime 1)) ^^^ xtime 1 ^^^ 1 := rfl
  have eq_thirteen : (0x0D : Byte) = xtime (xtime (xtime 1)) ^^^ xtime (xtime 1) ^^^ 1 := rfl
  have eq_fourteen : (0x0E : Byte) = xtime (xtime (xtime 1)) ^^^ xtime (xtime 1) ^^^ xtime 1 := rfl
  refine ⟨xtime_eq_gmul_two x, xtime_toNat x, ?_, ?_, ?_, ?_, ?_⟩ <;> rw [gmul_comm]
  all_goals
    simp only [eq_three, eq_nine, eq_eleven, eq_thirteen, eq_fourteen, gmul_xor_left, gmul_xtime_left, gmul_one_left]

/-! ## The round constants -/

/-- RCON[j+1] is 1 doubled j times (40_galois_field.md R104). -/
theorem rcon_succ {j : Nat} (h : j < 14) : rcon (j + 1) = xtime^[j] 0x01#8 := by
  rw [rcon, rconTable, List.getD_eq_getElem _ _ (by rwa [List.length_iterate]), List.getElem_iterate]

/-- Settles O22: a further round constant is one more doubling. -/
theorem roundConstantTable : Obligations.RoundConstantTable := by
  refine ⟨rfl, fun j h1 h13 => ?doubling, by decide⟩
  case doubling =>
    obtain ⟨k, rfl⟩ := Nat.exists_eq_add_of_le' h1
    rw [rcon_succ (by omega), rcon_succ (by omega), Function.iterate_succ_apply']

/-! ## The indices of the schedule -/

/-- Settles O27: for each of the three pairs (Nk, Nr) the ranges are arithmetic. -/
theorem scheduleIndicesInRange : Obligations.ScheduleIndicesInRange := by
  intro v p h
  rw [kslen_eq_words h]
  rcases params_cases h with ⟨-, rfl⟩ | ⟨-, rfl⟩ | ⟨-, rfl⟩ <;> simp only [Params.words, nb]
  all_goals
    refine ⟨fun i hnk hi _ => ?_, fun r c hr hc => ?_, ?_, ?_⟩ <;> omega

/-- Settles O8: each row of the table of parameters is computed. -/
theorem variantParameters : Obligations.VariantParameters := by
  unfold Obligations.VariantParameters
  decide

end Sys2Proof.Machine
end

section
/-! SUPPORT. SubBytes, ShiftRows and MixColumns with their inverses, byte by byte and undone by one another, and with them the statements of
43_round_transform.md. -/

namespace Sys2Proof.Machine

/-! ## SubBytes -/

@[simp] theorem getElem_subBytes (S : Block) (k : Nat) (h : k < 16) : (subBytes S)[k] = sbox S[k] := by
  simp [subBytes]

@[simp] theorem getElem_invSubBytes (S : Block) (k : Nat) (h : k < 16) : (invSubBytes S)[k] = invSbox S[k] := by
  simp [invSubBytes]

theorem invSubBytes_subBytes (S : Block) : invSubBytes (subBytes S) = S := by
  ext k h : 1
  rw [getElem_invSubBytes, getElem_subBytes, invSbox_sbox]

theorem subBytes_invSubBytes (S : Block) : subBytes (invSubBytes S) = S := by
  ext k h : 1
  rw [getElem_subBytes, getElem_invSubBytes, sbox_invSbox]

/-- Settles O29: both act byte by byte, and the tables are inverse to one another. -/
theorem subBytesFormula : Obligations.SubBytesFormula := fun S =>
  ⟨fun k h => ⟨getElem_subBytes S k h, getElem_invSubBytes S k h⟩, invSubBytes_subBytes S, subBytes_invSubBytes S⟩

/-! ## ShiftRows, with columns counted modulo 4 -/

theorem entry_shiftRows (S : Block) (r c : Fin 4) : entry (shiftRows S) r c = entry S r (c + r) := by
  rw [shiftRows, entry_ofEntries]
  rfl

theorem entry_invShiftRows (S : Block) (r c : Fin 4) : entry (invShiftRows S) r c = entry S r (c - r) := by
  rw [invShiftRows, entry_ofEntries]
  congr 1
  ext
  simp only [Fin.sub_def]
  omega

theorem invShiftRows_shiftRows (S : Block) : invShiftRows (shiftRows S) = S :=
  block_ext_entry fun r c => by rw [entry_invShiftRows, entry_shiftRows, sub_add_cancel]

theorem shiftRows_invShiftRows (S : Block) : shiftRows (invShiftRows S) = S :=
  block_ext_entry fun r c => by rw [entry_shiftRows, entry_invShiftRows, add_sub_cancel_right]

theorem shiftRows_four_times (S : Block) : shiftRows (shiftRows (shiftRows (shiftRows S))) = S := by
  have around : ∀ r c : Fin 4, c + r + r + r + r = c := by decide
  refine block_ext_entry fun r c => ?_
  simp only [entry_shiftRows, around]

/-- Byte 4c + r of a block is its entry at row r, column c (00_scope.md R15). -/
theorem getElem_eq_entry (S : Block) {r c : Nat} (hr : r < 4) (hc : c < 4) :
    S[4 * c + r] = entry S ⟨r, hr⟩ ⟨c, hc⟩ := rfl

/-- Settles O30: a row is read r columns on, or r columns back, and the columns are counted modulo 4. -/
theorem shiftRowsFormula : Obligations.ShiftRowsFormula := by
  intro S
  refine ⟨fun r c hr hc => ⟨?left, ?right⟩, invShiftRows_shiftRows S, shiftRows_invShiftRows S, shiftRows_four_times S⟩
  case left => rw [getElem_eq_entry _ hr hc, shiftRows, entry_ofEntries, entry]
  case right => rw [getElem_eq_entry _ hr hc, invShiftRows, entry_ofEntries, entry]

/-! ## MixColumns -/

@[simp] theorem column_mixColumns (S : Block) (c : Fin 4) : column (mixColumns S) c = mixColumn (column S c) :=
  column_ofEntries _ c

@[simp] theorem column_invMixColumns (S : Block) (c : Fin 4) : column (invMixColumns S) c = invMixColumn (column S c) :=
  column_ofEntries _ c

/-- Byte 4c + r of a block is byte r of its column c (00_scope.md R15). -/
theorem getElem_eq_byteOf_column (S : Block) {r c : Nat} (hr : r < 4) (hc : c < 4) :
    S[4 * c + r] = byteOf (column S ⟨c, hc⟩) r := by
  match r, hr with
  | 0, _ | 1, _ | 2, _ | 3, _ => rfl

/-- A block is fixed by its columns. -/
theorem block_ext_column {S T : Block} (h : ∀ c, column S c = column T c) : S = T := by
  ext k hk : 1
  have place : k = 4 * (k / 4) + k % 4 := by omega
  have byte_eq (U : Block) : U[k] = byteOf (column U ⟨k / 4, by omega⟩) (k % 4) := by
    rw [← getElem_eq_byteOf_column U (by omega) (by omega)]
    congr 1
  rw [byte_eq, byte_eq, h]

/-- A Word is fixed by its bytes. -/
theorem word_ext_byteOf {w w' : Word} (h : ∀ i, i < 4 → byteOf w i = byteOf w' i) : w = w' := by
  obtain ⟨a0, a1, a2, a3⟩ := w
  obtain ⟨b0, b1, b2, b3⟩ := w'
  congr
  · exact h 0 (by decide)
  · exact h 1 (by decide)
  · exact h 2 (by decide)
  · exact h 3 (by decide)

/-- Multiplying a column by one polynomial and then by another multiplies it by their product modulo x^4 + 1. -/
theorem columnProduct_columnProduct {p0 p1 p2 p3 q0 q1 q2 q3 : Byte} {w c : Word}
    (hw : ∀ i, i < 4 → byteOf w i = columnProduct q0 q1 q2 q3 c i) {i : Nat} (hi : i < 4) :
    columnProduct p0 p1 p2 p3 w i =
      columnProduct (gmul p0 q0 ^^^ gmul p1 q3 ^^^ gmul p2 q2 ^^^ gmul p3 q1)
        (gmul p0 q1 ^^^ gmul p1 q0 ^^^ gmul p2 q3 ^^^ gmul p3 q2)
        (gmul p0 q2 ^^^ gmul p1 q1 ^^^ gmul p2 q0 ^^^ gmul p3 q3)
        (gmul p0 q3 ^^^ gmul p1 q2 ^^^ gmul p2 q1 ^^^ gmul p3 q0) c i := by
  have hw0 := hw 0 (by decide)
  have hw1 := hw 1 (by decide)
  have hw2 := hw 2 (by decide)
  have hw3 := hw 3 (by decide)
  match i, hi with
  | 0, _ | 1, _ | 2, _ | 3, _ =>
    simp only [columnProduct, hw0, hw1, hw2, hw3, gmul_xor_right, gmul_xor_left, gmul_assoc]
    ac_rfl

theorem columnProduct_one (c : Word) (i : Nat) : columnProduct 1 0 0 0 c i = byteOf c i := by
  rw [columnProduct, gmul_one_left, gmul_zero_left, gmul_zero_left, gmul_zero_left]
  simp

/-- The two polynomials of R148 are inverse to one another. -/
theorem invMixColumn_mixColumn (c : Word) : invMixColumn (mixColumn c) = c := by
  refine word_ext_byteOf fun i hi => ?_
  rw [byteOf_invMixColumn _ hi, columnProduct_columnProduct (fun _ => byteOf_mixColumn c) hi]
  exact columnProduct_one c i

theorem mixColumn_invMixColumn (c : Word) : mixColumn (invMixColumn c) = c := by
  refine word_ext_byteOf fun i hi => ?_
  rw [byteOf_mixColumn _ hi, columnProduct_columnProduct (fun _ => byteOf_invMixColumn c) hi]
  exact columnProduct_one c i

theorem invMixColumns_mixColumns (S : Block) : invMixColumns (mixColumns S) = S :=
  block_ext_column fun c => by rw [column_invMixColumns, column_mixColumns, invMixColumn_mixColumn]

theorem mixColumns_invMixColumns (S : Block) : mixColumns (invMixColumns S) = S :=
  block_ext_column fun c => by rw [column_mixColumns, column_invMixColumns, mixColumn_invMixColumn]

/-- In a column of four equal bytes the coefficients 2, 3, 1 and 1 of each equation add up to 1. -/
theorem mixColumn_of_equal_bytes (x : Byte) : mixColumn ⟨x, x, x, x⟩ = ⟨x, x, x, x⟩ := by
  refine word_ext_byteOf fun i hi => ?_
  have equal_bytes (j : Nat) : byteOf ⟨x, x, x, x⟩ j = x := by
    unfold byteOf
    split <;> rfl
  rw [byteOf_mixColumn _ hi, columnProduct]
  simp only [equal_bytes, ← gmul_xor_left]
  exact gmul_one_left x

/-- Settles O31: byte 4c + r is byte r of the mixed column c, which is defined by the equations. -/
theorem mixColumnsEquations : Obligations.MixColumnsEquations := by
  intro S c hc
  have bytes {r : Nat} (hr : r < 4) : (mixColumns S)[4 * c + r] = byteOf (mixColumn (column S ⟨c, hc⟩)) r := by
    rw [getElem_eq_byteOf_column _ hr hc, column_mixColumns]
  exact ⟨bytes (r := 0) (by decide), bytes (r := 1) (by decide), bytes (r := 2) (by decide), bytes (r := 3) (by decide),
    mixColumn_of_equal_bytes⟩

/-- Settles O32: the equations in the same way, and the compositions column by column. -/
theorem invMixColumnsEquations : Obligations.InvMixColumnsEquations := by
  intro S
  refine ⟨fun c hc => ?equations, invMixColumns_mixColumns S, mixColumns_invMixColumns S⟩
  case equations =>
    have bytes {r : Nat} (hr : r < 4) : (invMixColumns S)[4 * c + r] = byteOf (invMixColumn (column S ⟨c, hc⟩)) r := by
      rw [getElem_eq_byteOf_column _ hr hc, column_invMixColumns]
    exact ⟨bytes (r := 0) (by decide), bytes (r := 1) (by decide), bytes (r := 2) (by decide), bytes (r := 3) (by decide)⟩

end Sys2Proof.Machine
end

section
/-! SUPPORT. Cipher and InvCipher undo one another, round by round. -/

namespace Sys2Proof.Machine

/-- If each `g k` undoes `f k` behind `m`, then the `g` in reverse order undo the `f` behind `m`. -/
theorem foldl_reverse_undoes {f g : Nat → Block → Block} {m : Block → Block} (undoes : ∀ k S, g k (m (f k S)) = m S)
    (l : List Nat) (S : Block) : l.reverse.foldl (fun S k => g k S) (m (l.foldl (fun S k => f k S) S)) = m S := by
  induction l generalizing S with
  | nil => rfl
  | cons k l ih =>
    rw [List.reverse_cons, List.foldl_append, List.foldl_cons, List.foldl_nil, List.foldl_cons, ih]
    exact undoes k S

/-- A middle round of InvCipher takes back the key, and the column mixing before it, between two substitutions. -/
theorem decRound_encRound (ks : Vector Word 60) (k : Nat) (S : Block) :
    decRound ks k (shiftRows (subBytes (encRound ks k S))) = shiftRows (subBytes S) := by
  rw [decRound, invShiftRows_shiftRows, invSubBytes_subBytes, encRound, addRoundKey_addRoundKey, invMixColumns_mixColumns]

theorem encRound_decRound (ks : Vector Word 60) (k : Nat) (S : Block) :
    encRound ks k (invSubBytes (invShiftRows (decRound ks k S))) = invSubBytes (invShiftRows S) := by
  rw [encRound, subBytes_invSubBytes, shiftRows_invShiftRows, decRound, mixColumns_invMixColumns, addRoundKey_addRoundKey]

/-- The result of Cipher, without its events (44_block_engine.md R164). -/
theorem cipher_block (ks : Vector Word 60) (nr : Nat) (B : Block) :
    (cipher ks nr B).block =
      encFinal ks nr ((middleRounds nr).foldl (fun S k => encRound ks k S) (addRoundKey B (roundKey ks 0))) := by
  simp only [cipher, BlockRun.advance_block]
  rw [foldl_advance_block _ _ fun k => k, BlockRun.advance_block]

/-- The result of InvCipher, without its events (44_block_engine.md R168). -/
theorem invCipher_block (ks : Vector Word 60) (nr : Nat) (B : Block) :
    (invCipher ks nr B).block =
      decFinal ks ((middleRounds nr).reverse.foldl (fun S k => decRound ks k S) (addRoundKey B (roundKey ks nr))) := by
  simp only [invCipher, BlockRun.advance_block]
  rw [foldl_advance_block _ _ fun k => nr - k, BlockRun.advance_block]

theorem invCipher_cipher (ks : Vector Word 60) (nr : Nat) (B : Block) :
    (invCipher ks nr (cipher ks nr B).block).block = B := by
  have middle := foldl_reverse_undoes (m := fun S => shiftRows (subBytes S)) (decRound_encRound ks) (middleRounds nr)
    (addRoundKey B (roundKey ks 0))
  rw [invCipher_block, cipher_block, encFinal, addRoundKey_addRoundKey, middle, decFinal, invShiftRows_shiftRows,
    invSubBytes_subBytes, addRoundKey_addRoundKey]

theorem cipher_invCipher (ks : Vector Word 60) (nr : Nat) (B : Block) :
    (cipher ks nr (invCipher ks nr B).block).block = B := by
  have middle := foldl_reverse_undoes (m := fun S => invSubBytes (invShiftRows S)) (encRound_decRound ks)
    (middleRounds nr).reverse (addRoundKey B (roundKey ks nr))
  rw [List.reverse_reverse] at middle
  rw [cipher_block, invCipher_block, decFinal, addRoundKey_addRoundKey, middle, encFinal, subBytes_invSubBytes,
    shiftRows_invShiftRows, addRoundKey_addRoundKey]

/-- Settles O36: each round of the one takes back a round of the other, from the innermost out. -/
theorem cipherAndInvCipherInverse : Obligations.CipherAndInvCipherInverse :=
  fun ks nr B => ⟨invCipher_cipher ks nr B, cipher_invCipher ks nr B⟩

end Sys2Proof.Machine
end

section
/-! SUPPORT. Commands run from a word, twice, on other input or on the state another left, and with them the remaining statements about
them. -/

namespace Sys2Proof.Machine

/-! ## The words that can succeed -/

/-- A word is a well-formed command's word exactly when it decodes to that command. -/
theorem eq_word_iff {v w : Bits32} (i : Instr) (hwf : i.wf = true) (hw : encode i = w) : v = w ↔ decode v = .command i := by
  rw [decode_eq_command_iff, hw, eq_comm]
  exact (and_iff_right hwf).symm

/-- A run that answers a state with a known ERR succeeds exactly when that ERR is 0. -/
theorem succeeds_iff_err_zero {o : Host.Outcome State Fault Refusal} {e : BitVec 4} (h : ∃ t, o = .next t ∧ t.err = e) :
    (∃ t, o = .next t ∧ t.err = 0) ↔ e = 0 := by
  obtain ⟨t, rfl, rfl⟩ := h
  simp

theorem execConstruct_succeeds_iff (arg : Nat) (s : State) :
    (∃ t, execConstruct arg s = .next t ∧ t.err = 0) ↔ arg = 128 ∨ arg = 192 ∨ arg = 256 := by
  rw [succeeds_iff_err_zero (execConstruct_err arg s)]
  split_ifs with h
  · simp [h]
  · simp only [true_iff]
    omega

theorem execExpandKey_succeeds_iff (arg : Nat) (s : State) : (∃ t, execExpandKey arg s = .next t ∧ t.err = 0) ↔
    arg = 16 ∧ s.var = .aes128 ∨ arg = 24 ∧ s.var = .aes192 ∨ arg = 32 ∧ s.var = .aes256 := by
  rw [succeeds_iff_err_zero (execExpandKey_err arg s)]
  cases s.var <;> simp [Variant.params, eq_comm]

theorem blockCommand_succeeds_iff (engine : Vector Word 60 → Nat → Block → BlockRun) (arg : Nat) (s : State) :
    (∃ t, blockCommand engine arg s = .next t ∧ t.err = 0) ↔ arg = 16 ∧ s.var ≠ .none ∧ s.ksv = true := by
  rw [succeeds_iff_err_zero (blockCommand_err engine arg s)]
  split_ifs <;> simp_all

/-- Settles O7: the eight words are those of the commands that can succeed, each under its command's own condition. -/
theorem succeedingWordsAreTheEight : Obligations.SucceedingWordsAreTheEight := by
  intro v s
  rw [eq_word_iff (w := 0x00800001) (.construct 128) rfl rfl, eq_word_iff (w := 0x00C00001) (.construct 192) rfl rfl,
    eq_word_iff (w := 0x01000001) (.construct 256) rfl rfl, eq_word_iff (w := 0x00100002) (.expandKey 16) rfl rfl,
    eq_word_iff (w := 0x00180002) (.expandKey 24) rfl rfl, eq_word_iff (w := 0x00200002) (.expandKey 32) rfl rfl,
    eq_word_iff (w := 0x00100003) (.encryptBlock 16) rfl rfl, eq_word_iff (w := 0x00100004) (.decryptBlock 16) rfl rfl]
  rcases execute_cases v s with ⟨r, hdec, next⟩ | ⟨i, hdec, run⟩
  · rw [succeeds_iff_err_zero ⟨_, next, rfl⟩]
    simpa [hdec] using Error.code_ne_zero .illegalCommand
  rw [run, hdec]
  cases i with
  | construct arg => simpa [exec] using execConstruct_succeeds_iff arg s
  | expandKey arg => simpa [exec] using execExpandKey_succeeds_iff arg s
  | encryptBlock arg => simpa [exec_encryptBlock] using blockCommand_succeeds_iff cipher arg s
  | decryptBlock arg => simpa [exec_decryptBlock] using blockCommand_succeeds_iff invCipher arg s

/-! ## What a command changes -/

/-- A block command raises the error of its checks or delivers what its engine makes of the block. -/
theorem blockCommand_cases (engine : Vector Word 60 → Nat → Block → BlockRun) (arg : Nat) (s : State) :
    (∃ e, checkBlock arg s = .error e ∧ blockCommand engine arg s = .next (s.raise e)) ∨
    ∃ p, checkBlock arg s = .ok p ∧ blockCommand engine arg s = .next (s.finishBlock (engine s.ks p.nr s.blockIn)) := by
  unfold blockCommand
  cases checkBlock arg s with
  | error e => exact .inl ⟨e, rfl, rfl⟩
  | ok p => exact .inr ⟨p, rfl, rfl⟩

/-- Settles O13: each of the updates a command can make leaves a legal ERR and writes no field but those named. -/
theorem commandsAlwaysComplete : Obligations.CommandsAlwaysComplete := by
  intro i s
  rcases exec_cases i s with ⟨e, next⟩ | ⟨_, v, -, -, next⟩ | ⟨p, -, -, next⟩ | ⟨p, -, -, -, next⟩ | ⟨p, -, -, -, next⟩
  · exact ⟨_, next, e.code_le, rfl⟩
  · exact ⟨_, next, by simp, rfl⟩
  · exact ⟨_, next, by simp, rfl⟩
  · generalize cipher s.ks p.nr s.blockIn = r at next
    exact ⟨_, next, by simp, rfl⟩
  · generalize invCipher s.ks p.nr s.blockIn = r at next
    exact ⟨_, next, by simp, rfl⟩

/-! ## What the host reads after a command -/

section WindowFrame

variable {s t : State} {off : Nat}

theorem regAt_din_range {j : Fin 8} (h : regAt off = .din j) : 0x010 ≤ off ∧ off < 0x030 := by
  unfold regAt at h
  split_ifs at h with _ _ range
  exact range

theorem regAt_dout_range {j : Fin 4} (h : regAt off = .dout j) : 0x030 ≤ off ∧ off < 0x040 := by
  unfold regAt at h
  split_ifs at h with _ _ _ range
  exact range

theorem regAt_ks_range {i : Fin 60} (h : regAt off = .ks i) : 0x100 ≤ off ∧ off < 0x1F0 := by
  unfold regAt at h
  split_ifs at h with _ _ _ _ range
  exact range

/-- A register other than STATUS reads the same in two states that agree on the buffer it shows (20_memory.md R52, R57). -/
theorem memRead_congr (hstatus : off ≠ 4) (hdin : t.din = s.din) (hdout : 0x030 ≤ off ∧ off < 0x040 → t.dout = s.dout)
    (hks : 0x100 ≤ off ∧ off < 0x1F0 → t.ks = s.ks ∧ t.ksv = s.ksv ∧ t.var = s.var) : memRead t off = memRead s off := by
  unfold memRead
  cases hreg : regAt off with
  | cmd => rfl
  | status => exact absurd (regAt_eq_status.mp hreg) hstatus
  | din j => simp only [readReg, hdin]
  | dout j => simp only [readReg, hdout (regAt_dout_range hreg)]
  | ks i =>
    obtain ⟨hks, hksv, hvar⟩ := hks (regAt_ks_range hreg)
    simp only [readReg, readKs, hks, hksv, hvar]
  | reserved => rfl

theorem memRead_raise (hstatus : off ≠ 4) (e : Error) : memRead (s.raise e) off = memRead s off :=
  memRead_congr hstatus rfl (fun _ => rfl) fun _ => ⟨rfl, rfl, rfl⟩

theorem memRead_finishBlock (hstatus : off ≠ 4) (hoff : ¬(0x030 ≤ off ∧ off < 0x040)) (r : BlockRun) :
    memRead (s.finishBlock r) off = memRead s off :=
  memRead_congr hstatus rfl (fun h => absurd h hoff) fun _ => ⟨rfl, rfl, rfl⟩

theorem memRead_execConstruct {arg : Nat} (hstatus : off ≠ 4) (hoff : ¬(0x100 ≤ off ∧ off < 0x1F0))
    (h : execConstruct arg s = .next t) : memRead t off = memRead s off := by
  rcases execConstruct_cases arg s with ⟨-, next⟩ | ⟨v, -, next⟩ <;> cases next.symm.trans h
  · exact memRead_raise hstatus _
  · exact memRead_congr hstatus rfl (fun _ => rfl) fun h => absurd h hoff

theorem memRead_execExpandKey {arg : Nat} (hstatus : off ≠ 4) (hoff : ¬(0x100 ≤ off ∧ off < 0x1F0))
    (h : execExpandKey arg s = .next t) : memRead t off = memRead s off := by
  rcases execExpandKey_cases arg s with ⟨e, -, next⟩ | ⟨p, -, -, next⟩ <;> cases next.symm.trans h
  · exact memRead_raise hstatus _
  · exact memRead_congr hstatus rfl (fun _ => rfl) fun h => absurd h hoff

theorem memRead_blockCommand {engine : Vector Word 60 → Nat → Block → BlockRun} {arg : Nat} (hstatus : off ≠ 4)
    (hoff : ¬(0x030 ≤ off ∧ off < 0x040)) (h : blockCommand engine arg s = .next t) : memRead t off = memRead s off := by
  rcases blockCommand_cases engine arg s with ⟨e, -, next⟩ | ⟨p, -, next⟩ <;> cases next.symm.trans h
  · exact memRead_raise hstatus _
  · exact memRead_finishBlock hstatus hoff _

end WindowFrame

/-- Settles O14: a failed command only raises, and each command writes only the buffer of its kind. -/
theorem commandWindowFrame : Obligations.CommandWindowFrame := by
  intro i s t off hexec _ hstatus
  refine ⟨fun herr => ?failed, ?keyCommands, ?blockCommands⟩
  case failed =>
    rcases exec_raises_or_succeeds i s with ⟨e, next⟩ | ⟨u, next, hu⟩ <;> cases next.symm.trans hexec
    · exact memRead_raise hstatus e
    · exact absurd hu herr
  case keyCommands =>
    rintro arg (rfl | rfl) hoff
    · exact memRead_execConstruct hstatus hoff hexec
    · exact memRead_execExpandKey hstatus hoff hexec
  case blockCommands =>
    rintro arg (rfl | rfl) hoff
    · exact memRead_blockCommand (engine := cipher) hstatus hoff hexec
    · exact memRead_blockCommand (engine := invCipher) hstatus hoff hexec

/-! ## A command given twice -/

theorem storeWords_storeWords (w : List Word) (n : Nat) (ks : Vector Word 60) :
    storeWords w n (storeWords w n ks) = storeWords w n ks := by
  ext i hi : 1
  simp only [getElem_storeWords]
  split_ifs <;> rfl

/-- The key in DIN is not what a command's last action writes. -/
@[simp] theorem State.rawKey_succeed (s : State) (nk : Nat) : s.succeed.rawKey nk = s.rawKey nk := rfl

theorem loadSchedule_succeed_twice (s : State) (w : List Word) (n : Nat) :
    ((s.loadSchedule w n).succeed.loadSchedule w n).succeed = (s.loadSchedule w n).succeed := by
  simp only [State.loadSchedule_succeed_eq, storeWords_storeWords]

section Repeated

variable {arg : Nat} {s t : State}

theorem execConstruct_twice (h : execConstruct arg s = .next t) : execConstruct arg t = .next t := by
  rcases execConstruct_cases arg s with ⟨hv, next⟩ | ⟨v, hv, next⟩ <;> cases next.symm.trans h
  · rw [execConstruct_of_no_variant hv]
    rfl
  · rw [execConstruct_of_variant hv]
    rfl

theorem execExpandKey_twice (h : execExpandKey arg s = .next t) : execExpandKey arg t = .next t := by
  rcases execExpandKey_cases arg s with ⟨e, hcheck, next⟩ | ⟨p, hp, rfl, next⟩ <;> cases next.symm.trans h
  · rw [execExpandKey, checkKey_raise, hcheck]
    rfl
  · rw [execExpandKey_of_ok (s := (s.loadSchedule _ _).succeed) hp, State.rawKey_succeed, State.rawKey_loadSchedule,
      loadSchedule_succeed_twice]

theorem blockCommand_twice {engine : Vector Word 60 → Nat → Block → BlockRun} (h : blockCommand engine arg s = .next t) :
    ∃ u, blockCommand engine arg t = .next u ∧ u = { t with trace := u.trace } := by
  rcases blockCommand_cases engine arg s with ⟨e, hcheck, next⟩ | ⟨p, hcheck, next⟩ <;> cases next.symm.trans h
  · refine ⟨(s.raise e).raise e, ?_, rfl⟩
    rw [blockCommand, checkBlock_raise, hcheck]
  · generalize hr : engine s.ks p.nr s.blockIn = r
    refine ⟨(s.finishBlock r).finishBlock r, ?_, rfl⟩
    rw [blockCommand, checkBlock_finishBlock, hcheck]
    simp only [State.blockIn_finishBlock, State.finishBlock_ks, hr]

end Repeated

/-- Settles O15: what a command writes it writes from operands that it leaves. -/
theorem repeatedCommandSameResult : Obligations.RepeatedCommandSameResult := fun _ _ _ =>
  ⟨execConstruct_twice, execExpandKey_twice, blockCommand_twice (engine := cipher), blockCommand_twice (engine := invCipher)⟩

/-! ## Input that a command does not use -/

section OtherInput

variable {arg : Nat} {s t : State} {d : Vector Byte 32}

theorem blockIn_congr (same : ∀ (k : Nat) (h : k < 32), k < 16 → d[k] = s.din[k]) :
    State.blockIn { s with din := d } = s.blockIn := by
  ext k hk : 1
  simpa using same k (by omega) hk

theorem rawKey_congr {nk : Nat} (same : ∀ (k : Nat) (h : k < 32), k < 4 * nk → d[k] = s.din[k]) :
    State.rawKey { s with din := d } nk = s.rawKey nk := by
  apply List.ext_getElem
  · simp [State.rawKey]
  · intro k hk _
    simp only [State.rawKey, List.length_take, Vector.length_toList] at hk
    simpa [State.rawKey] using same k (by omega) (by omega)

theorem blockCommand_of_other_din {engine : Vector Word 60 → Nat → Block → BlockRun}
    (same : ∀ (k : Nat) (h : k < 32), k < 16 → d[k] = s.din[k]) (h : blockCommand engine arg s = .next t) :
    blockCommand engine arg { s with din := d } = .next { t with din := d } := by
  have same_check : checkBlock arg { s with din := d } = checkBlock arg s := rfl
  rw [blockCommand, same_check, blockIn_congr same]
  rcases blockCommand_cases engine arg s with ⟨e, hcheck, next⟩ | ⟨p, hcheck, next⟩ <;> cases next.symm.trans h
  · rw [hcheck]
    rfl
  · rw [hcheck]
    dsimp only
    generalize engine s.ks p.nr s.blockIn = r
    rfl

theorem execExpandKey_of_other_din {p : Params} (hp : s.var.params = some p)
    (same : ∀ (k : Nat) (h : k < 32), k < 4 * p.nk → d[k] = s.din[k]) (h : execExpandKey arg s = .next t) :
    execExpandKey arg { s with din := d } = .next { t with din := d } := by
  have same_check : checkKey arg { s with din := d } = checkKey arg s := rfl
  rcases execExpandKey_cases arg s with ⟨e, hcheck, next⟩ | ⟨q, hq, rfl, next⟩ <;> cases next.symm.trans h
  · rw [execExpandKey, same_check, hcheck]
    rfl
  · cases hp.symm.trans hq
    rw [execExpandKey_of_ok (s := { s with din := d }) hp, rawKey_congr same]
    rfl

end OtherInput

/-- Settles O16: a command reads DIN through `blockIn` or `rawKey` only. -/
theorem unusedInputIgnored : Obligations.UnusedInputIgnored := fun _ _ _ _ =>
  ⟨fun same => ⟨blockCommand_of_other_din (engine := cipher) same, blockCommand_of_other_din (engine := invCipher) same⟩,
    fun _ hp same => execExpandKey_of_other_din hp same⟩

/-! ## ERR -/

/-- A command reads no ERR, and it always writes one. -/
theorem exec_of_other_err (i : Instr) (s : State) (e : BitVec 4) : exec i { s with err := e } = exec i s := by
  have block (engine : Vector Word 60 → Nat → Block → BlockRun) (arg : Nat) :
      blockCommand engine arg { s with err := e } = blockCommand engine arg s := by
    have same_check : checkBlock arg { s with err := e } = checkBlock arg s := rfl
    rw [blockCommand, blockCommand, same_check]
    cases checkBlock arg s <;> rfl
  cases i with
  | construct arg =>
    simp only [exec, execConstruct]
    cases Variant.ofKeyBits arg <;> rfl
  | expandKey arg =>
    have same_check : checkKey arg { s with err := e } = checkKey arg s := rfl
    simp only [exec, execExpandKey, same_check]
    cases checkKey arg s <;> rfl
  | encryptBlock arg => exact block cipher arg
  | decryptBlock arg => exact block invCipher arg

theorem execute_of_other_err (v : Bits32) (s : State) (e : BitVec 4) : execute v { s with err := e } = execute v s := by
  unfold execute
  cases decode v with
  | illegal r => rfl
  | command i => exact exec_of_other_err i s e

theorem memWrite_err {off : Nat} {v : Bits32} {s t : State} (hoff : off ≠ 0) (h : memWrite off v s = .next t) :
    t.err = s.err := by
  rcases memWrite_cases off v s with ⟨h0, -⟩ | ⟨j, -, next⟩ | ⟨-, -, next⟩
  · exact absurd h0 hoff
  · cases next.symm.trans h
    rfl
  · cases next.symm.trans h
    rfl

/-- Settles O19: of the effects of a step only a command and a reset write ERR. -/
theorem errReportsLastCommandOnly : Obligations.ErrReportsLastCommandOnly := by
  refine ⟨execute_of_other_err, fun _ _ _ _ => memWrite_err, fun s t hstep noCommand noReset => ?_⟩
  cases step_effect hstep with
  | idle _ | read _ | storeDin _ | ignoredWrite _ _ => rfl
  | reset hinbox => exact absurd hinbox (noReset _)
  | command hinbox _ => exact absurd hinbox (noCommand _ _)

/-! ## A block command and the opposite one -/

/-- A block command that ends with ERR = 0 passed its checks and delivered what its engine made of the block. -/
theorem blockCommand_next_ok {engine : Vector Word 60 → Nat → Block → BlockRun} {arg : Nat} {s t : State}
    (h : blockCommand engine arg s = .next t) (herr : t.err = 0) :
    ∃ p, s.var.params = some p ∧ s.ksv = true ∧ t = s.finishBlock (engine s.ks p.nr s.blockIn) := by
  rcases blockCommand_cases engine arg s with ⟨e, -, next⟩ | ⟨p, hcheck, next⟩ <;> cases next.symm.trans h
  · exact absurd herr e.code_ne_zero
  · obtain ⟨hp, -, hksv⟩ := checkBlock_eq_ok.mp hcheck
    exact ⟨p, hp, hksv, rfl⟩

/-- If one engine undoes the other, its command undoes the other's on the block that was delivered. -/
theorem blockCommand_undoes {engine opposite : Vector Word 60 → Nat → Block → BlockRun}
    (undoes : ∀ ks nr B, (opposite ks nr (engine ks nr B).block).block = B) {s t u : State} (herr : t.err = 0)
    (hvar : u.var = t.var) (hksv : u.ksv = t.ksv) (hks : u.ks = t.ks) (hdin : ∀ (k : Nat) (h : k < 16), u.din[k] = t.dout[k])
    (h : blockCommand engine 16 s = .next t) :
    ∃ u', blockCommand opposite 16 u = .next u' ∧ u'.err = 0 ∧ ∀ (k : Nat) (h : k < 16), u'.dout[k] = s.din[k] := by
  obtain ⟨p, hp, hvalid, rfl⟩ := blockCommand_next_ok h herr
  have input : u.blockIn = (engine s.ks p.nr s.blockIn).block := by
    ext k hk : 1
    rw [State.blockIn_getElem, hdin k hk, State.finishBlock_dout]
  refine ⟨_, blockCommand_of_ok (p := p) ?_ rfl ?_, State.finishBlock_err _ _, fun k hk => ?_⟩
  · rw [hvar, State.finishBlock_var, hp]
  · rw [hksv, State.finishBlock_ksv, hvalid]
  · simp only [State.finishBlock_dout, input, hks, State.finishBlock_ks, undoes, State.blockIn_getElem]

/-- Settles O37, from `invCipher_cipher` and `cipher_invCipher`. -/
theorem decryptUndoesEncrypt : Obligations.DecryptUndoesEncrypt := fun _ _ _ herr hvar hksv hks hdin =>
  ⟨blockCommand_undoes invCipher_cipher herr hvar hksv hks hdin, blockCommand_undoes cipher_invCipher herr hvar hksv hks hdin⟩

/-! ## The events of a block command -/

/-- A variant has at least one round. -/
theorem one_le_nr {v : Variant} {p : Params} (h : v.params = some p) : 1 ≤ p.nr := by
  rcases params_cases h with ⟨-, rfl⟩ | ⟨-, rfl⟩ | ⟨-, rfl⟩ <;> decide

theorem blockCommand_trace {engine : Vector Word 60 → Nat → Block → BlockRun} {arg : Nat} {s t : State}
    (h : blockCommand engine arg s = .next t) (hquiet : t.err ≠ 0 ∨ s.cfg.tracePresent = false) : t.trace = s.trace := by
  rcases blockCommand_cases engine arg s with ⟨e, -, next⟩ | ⟨p, -, next⟩ <;> cases next.symm.trans h
  · rfl
  · have absent : s.cfg.tracePresent = false := hquiet.resolve_left (not_not.mpr (State.finishBlock_err _ _))
    simp [absent]

/-- The events of a run through the states 0 to `n` are numbered from 0 up, and the last holds the state it ends in. -/
theorem runThrough_events (d : Dir) (S : Nat → Block) (n : Nat) :
    (runThrough d S n).events.length = n + 1 ∧
    (∀ (k : Nat) (e : TraceEvent), (runThrough d S n).events[k]? = some e → e.dir = d ∧ e.k = k) ∧
    (runThrough d S n).events.getLast?.map TraceEvent.block = some (runThrough d S n).block := by
  refine ⟨by simp [runThrough], fun k e hk => ?_, by simp [runThrough, List.range_succ]⟩
  simp only [runThrough, List.getElem?_map, Option.map_eq_some_iff] at hk
  obtain ⟨i, hi, rfl⟩ := hk
  obtain ⟨_, rfl⟩ := List.getElem?_eq_some_iff.mp hi
  exact ⟨rfl, List.getElem_range _⟩

theorem blockCommand_events {engine : Vector Word 60 → Nat → Block → BlockRun} {d : Dir}
    {states : Vector Word 60 → Nat → Block → Nat → Block}
    (runs : ∀ (ks : Vector Word 60) {nr : Nat}, 1 ≤ nr → ∀ input, engine ks nr input = runThrough d (states ks nr input) nr)
    {arg : Nat} {s t : State} (h : blockCommand engine arg s = .next t) (herr : t.err = 0) (port : s.cfg.tracePresent = true) :
    ∃ (p : Params) (es : List TraceEvent), s.var.params = some p ∧ t.trace = s.trace ++ es ∧ es.length = p.nr + 1 ∧
      (∀ (k : Nat) (e : TraceEvent), es[k]? = some e → e.dir = d ∧ e.k = k) ∧
      es.getLast?.map TraceEvent.block = some t.dout := by
  obtain ⟨p, hp, -, rfl⟩ := blockCommand_next_ok h herr
  rw [runs s.ks (one_le_nr hp)]
  exact ⟨p, _, hp, by simp [port], runThrough_events d _ p.nr⟩

/-- Settles O38: the run of a block command goes through Nr + 1 states and emits each. -/
theorem traceEventsOfBlockCommands : Obligations.TraceEventsOfBlockCommands := by
  rintro s t arg i d (⟨rfl, rfl⟩ | ⟨rfl, rfl⟩) hexec
  · exact ⟨fun herr => blockCommand_trace (engine := cipher) hexec (.inl herr),
      fun absent => blockCommand_trace (engine := cipher) hexec (.inr absent),
      blockCommand_events cipher_eq_runThrough hexec⟩
  · exact ⟨fun herr => blockCommand_trace (engine := invCipher) hexec (.inl herr),
      fun absent => blockCommand_trace (engine := invCipher) hexec (.inr absent),
      blockCommand_events invCipher_eq_runThrough hexec⟩

/-! ## The ports of the units -/

/-- A block command delivers what its engine makes of the sixteen Bytes in DIN (44_block_engine.md R173). -/
theorem blockCommand_delivers (engine : Vector Word 60 → Nat → Block → BlockRun) {s : State} {p : Params}
    (hp : s.var.params = some p) (hksv : s.ksv = true) {input : Block}
    (hinput : ∀ (k : Nat) (h : k < 16), input[k] = s.din[k]) :
    ∃ t, blockCommand engine 16 s = .next t ∧ t.err = 0 ∧ t.dout = (engine s.ks p.nr input).block := by
  have input_eq : s.blockIn = input := by
    ext k hk : 1
    rw [State.blockIn_getElem, hinput k hk]
  exact ⟨_, blockCommand_of_ok hp rfl hksv, State.finishBlock_err _ _, by rw [State.finishBlock_dout, input_eq]⟩

/-- Settles O60: a port is the function its command applies to the same operands. -/
theorem unitPortsDriveCommands : Obligations.UnitPortsDriveCommands := by
  refine ⟨fun x y => ⟨rfl, rfl, rfl⟩, fun s p hp => ⟨?expands, fun input hinput hksv => ?delivers⟩⟩
  case expands =>
    rw [exec, execExpandKey_of_ok hp, State.loadSchedule_succeed_eq]
    rfl
  case delivers =>
    exact ⟨blockCommand_delivers cipher hp hksv hinput, blockCommand_delivers invCipher hp hksv hinput⟩

end Sys2Proof.Machine
end

section
/-! SUPPORT. The statements of 20_memory.md, 70_reset_and_hazards.md and 10_state.md on what a step reads, writes and leaves. -/

namespace Sys2Proof.Machine

/-! ## Accesses that have no step, and those that have one -/

/-- Settles O44: width and alignment are checked before BUSY. -/
theorem unadmittedAccessStuck : Obligations.UnadmittedAccessStuck := by
  intro s addr width v rest hlo hhi hbad hinbox
  obtain ⟨off, rfl⟩ := Nat.exists_eq_add_of_le hlo
  have selected := windowOffset_base_add s.cfg (off := off) (by omega)
  have refused : admitted off width = false := by
    rw [Nat.add_sub_cancel_left] at hbad
    rw [← Bool.not_eq_true, admitted_eq_true_iff]
    omega
  rcases hinbox with h | h
  · rw [step_of_read h]
    simp [hostRead, selected, refused]
  · rw [step_of_write h]
    simp [hostWrite, selected, refused]

/-- Settles O45, access by access. -/
theorem busyAdmitsOnlyStatusReads : Obligations.BusyAdmitsOnlyStatusReads := by
  intro s off v rest hbusy hoff haligned
  refine ⟨fun h => step_of_busy_write hoff haligned h hbusy, fun h => step_of_busy_read hoff haligned h hbusy, ?status⟩
  case status =>
    rintro h rfl
    refine ⟨statusWord s, ?_, step_of_admitted_read hoff haligned h fun _ => rfl⟩
    rw [statusWord_busy, hbusy]

/-- Settles O48. -/
theorem idleEngineHoldsState : Obligations.IdleEngineHoldsState :=
  fun _ => step_of_empty

theorem exists_memWrite_next (off : Nat) (v : Bits32) (s : State) : ∃ t, memWrite off v s = .next t := by
  rcases memWrite_cases off v s with ⟨-, run⟩ | ⟨j, -, next⟩ | ⟨-, -, next⟩
  · obtain ⟨t, next, -⟩ := execute_effect v s
    exact ⟨t, run.trans next⟩
  · exact ⟨_, next⟩
  · exact ⟨_, next⟩

/-- An access that the spec admits completes. -/
theorem exists_step_next_of_allowed {s : State} {a : HostAccess} {rest : List HostAccess} (hinbox : s.inbox = a :: rest)
    (allowed : accessAllowed s a) : ∃ t, step s = .next t := by
  cases a with
  | reset => exact ⟨_, step_of_reset hinbox⟩
  | read addr width =>
    obtain ⟨off, selected, rfl, haligned, hbusy⟩ := allowed
    obtain ⟨rfl, hoff⟩ := windowOffset_eq_some.mp selected
    exact ⟨_, step_of_admitted_read hoff haligned hinbox hbusy⟩
  | write addr width v =>
    obtain ⟨off, selected, rfl, haligned, hbusy⟩ := allowed
    obtain ⟨rfl, hoff⟩ := windowOffset_eq_some.mp selected
    rw [step_of_admitted_write hoff haligned hinbox hbusy]
    exact exists_memWrite_next off v _

/-- An access that completes is one that the spec admits. -/
theorem accessAllowed_of_next {s t : State} {a : HostAccess} {rest : List HostAccess}
    (taken : hostAccess a (s.withInbox rest) = .next t) : accessAllowed s a := by
  cases a with
  | reset => trivial
  | read addr width =>
    obtain ⟨off, hoff, hwidth, haligned, hbusy, -⟩ := hostRead_next taken
    exact ⟨off, hoff, hwidth, haligned, hbusy⟩
  | write addr width v =>
    obtain ⟨off, hoff, hwidth, haligned, hbusy, -⟩ := hostWrite_next taken
    exact ⟨off, hoff, hwidth, haligned, hbusy⟩

/-- Settles O47: only a pending access that is not admitted stops a step. -/
theorem stepCompletesIffAllowed : Obligations.StepCompletesIffAllowed := by
  refine fun s => ⟨fun ⟨t, hstep⟩ => ?admits, ?completes⟩
  case admits =>
    rcases step_next hstep with ⟨hempty, -⟩ | ⟨a, rest, hinbox, taken⟩
    · exact .inl hempty
    · exact .inr ⟨a, rest, hinbox, accessAllowed_of_next taken⟩
  case completes =>
    rintro (hempty | ⟨a, rest, hinbox, allowed⟩)
    · exact ⟨s, step_of_empty hempty⟩
    · exact exists_step_next_of_allowed hinbox allowed

/-! ## Reads -/

/-- STATUS as a number: its fields do not overlap (10_state.md R24). -/
theorem statusWord_toNat (s : State) : (statusWord s).toNat =
    s.ksv.toNat * 2 ^ 20 + s.var.code.toNat * 2 ^ 16 + s.busy.toNat * 2 ^ 8 + s.err.toNat := by
  have fields : ∀ (ksv busy : Bool) (code : BitVec 2) (err : BitVec 4),
      ((BitVec.ofBool ksv).setWidth 32 <<< 20 ||| code.setWidth 32 <<< 16 ||| (BitVec.ofBool busy).setWidth 32 <<< 8 |||
        err.setWidth 32).toNat = ksv.toNat * 2 ^ 20 + code.toNat * 2 ^ 16 + busy.toNat * 2 ^ 8 + err.toNat := by
    decide
  exact fields s.ksv s.busy s.var.code s.err

theorem memRead_din (s : State) {j : Nat} (h : j < 8) : memRead s (0x010 + 4 * j) = pack s.din j (by omega) := by
  rw [memRead, regAt_din h, readReg]

theorem memRead_dout (s : State) {j : Nat} (h : j < 4) : memRead s (0x030 + 4 * j) = pack s.dout j (by omega) := by
  rw [memRead, regAt_dout h, readReg]

theorem memRead_ks (s : State) {i : Nat} (h : i < 60) : memRead s (0x100 + 4 * i) = readKs s ⟨i, h⟩ := by
  rw [memRead, regAt_ks h, readReg]

theorem readKs_toNat (s : State) (i : Fin 60) : (readKs s i).toNat =
    if s.ksv = true ∧ i.val < s.var.kslen then
      s.ks[i.val].a0.toNat * 2 ^ 24 + s.ks[i.val].a1.toNat * 2 ^ 16 + s.ks[i.val].a2.toNat * 2 ^ 8 + s.ks[i.val].a3.toNat
    else 0 := by
  unfold readKs
  split_ifs
  · exact wordVal_toNat _
  · rfl

/-- Settles O40: a read appends `memRead`, whose value each register's own lemma gives. -/
theorem hostReadReturnsRegister : Obligations.HostReadReturnsRegister := by
  intro s
  refine ⟨fun off rest hoff haligned hbusy h => step_of_admitted_read hoff haligned h hbusy, rfl, statusWord_toNat s,
    fun j h => ?din, fun j h => ?dout, fun i h => ?ks, fun off _ h => ?reserved⟩
  case din =>
    rw [memRead_din s h]
    exact wordVal_toNat _
  case dout =>
    rw [memRead_dout s h]
    exact wordVal_toNat _
  case ks =>
    rw [memRead_ks s h]
    exact readKs_toNat s _
  case reserved =>
    rw [memRead, regAt_reserved (by omega) (by omega) (by omega), readReg]

/-! ## Writes -/

/-- Byte `k` of a bus value, counted from its most significant end (20_memory.md R53). -/
theorem byteOf_wordOfVal_toNat (v : Bits32) {k : Nat} (hk : k < 4) :
    (byteOf (wordOfVal v) k).toNat = v.toNat / 2 ^ (24 - 8 * k) % 256 := by
  match k, hk with
  | 0, _ | 1, _ | 2, _ | 3, _ => simp [byteOf, wordOfVal, Nat.shiftRight_eq_div_pow]

theorem memWrite_din (s : State) {j : Nat} (h : j < 8) (v : Bits32) :
    memWrite (0x010 + 4 * j) v s = .next (s.writeDin ⟨j, h⟩ v) := by
  rw [memWrite, regAt_din h]

/-- A write at an offset that is neither CMD nor in DIN has no effect (20_memory.md R58, R59). -/
theorem memWrite_elsewhere (s : State) {off : Nat} (hcmd : off ≠ 0) (hdin : off < 0x010 ∨ 0x030 ≤ off) (v : Bits32) :
    memWrite off v s = .next s := by
  rcases memWrite_cases off v s with ⟨h0, -⟩ | ⟨j, hj, -⟩ | ⟨-, -, next⟩
  · exact absurd h0 hcmd
  · have := regAt_din_range hj
    omega
  · exact next

/-- Settles O42: an admitted write is `memWrite`, which CMD, DIN and the other offsets take each in its way. -/
theorem hostWriteEffects : Obligations.HostWriteEffects := by
  intro s off v rest hoff haligned hinbox
  refine ⟨step_of_busy_write hoff haligned hinbox, fun hbusy => ?_⟩
  rw [step_of_admitted_write hoff haligned hinbox hbusy]
  refine ⟨fun h => by rw [h]; rfl, ?din, fun hcmd hdin => memWrite_elsewhere _ hcmd hdin v⟩
  case din =>
    rintro j hj rfl
    refine ⟨((s.withInbox rest).writeDin ⟨j, hj⟩ v).din, memWrite_din _ hj v, fun k hk => ?_⟩
    rw [State.writeDin_din_getElem, apply_ite BitVec.toNat, byteOf_wordOfVal_toNat v (Nat.mod_lt k (by decide))]
    rfl

/-- DIN_j reads the value that was written to it. -/
theorem pack_writeDin_same (s : State) (j : Fin 8) (v : Bits32) :
    pack (s.writeDin j v).din j.val (by omega) = v := by
  have place : (4 * j.val + 1) / 4 = j.val ∧ (4 * j.val + 2) / 4 = j.val ∧ (4 * j.val + 3) / 4 = j.val := by omega
  refine (congrArg wordVal ?_).trans (wordVal_wordOfVal v)
  simp [State.writeDin_din_getElem, place, byteOf]

theorem pack_writeDin_other (s : State) {i j : Fin 8} (hne : i ≠ j) (v : Bits32) :
    pack (s.writeDin j v).din i.val (by omega) = pack s.din i.val (by omega) := by
  have hval : i.val ≠ j.val := fun h => hne (Fin.ext h)
  have place : (4 * i.val + 1) / 4 = i.val ∧ (4 * i.val + 2) / 4 = i.val ∧ (4 * i.val + 3) / 4 = i.val := by omega
  simp [pack, State.writeDin_din_getElem, place, hval]

/-- Settles O43: the write replaces the four bytes of one DIN register, and no other register shows them. -/
theorem dinWriteThenRead : Obligations.DinWriteThenRead := by
  intro s j v hj
  refine ⟨_, memWrite_din s hj v, ?same, fun off haligned hne => ?other⟩
  case same =>
    rw [memRead_din _ hj]
    exact pack_writeDin_same s ⟨j, hj⟩ v
  case other =>
    unfold memRead
    cases hreg : regAt off with
    | din i =>
      have apart : i ≠ ⟨j, hj⟩ := fun h => hne (by rw [(regAt_eq_din haligned).mp hreg, h])
      exact pack_writeDin_other s apart v
    | cmd | status | dout _ | ks _ | reserved => rfl

/-! ## What a step changes -/

/-- A command that changes VAR or clears KSV is a CONSTRUCT of one of the three key sizes. -/
theorem CommandEffect.construct_of_changed {v : Bits32} {s t : State} (effect : CommandEffect v s t)
    (h : t.var ≠ s.var ∨ (s.ksv = true ∧ t.ksv = false)) :
    ∃ arg, decode v = .command (.construct arg) ∧ (arg = 128 ∨ arg = 192 ∨ arg = 256) := by
  cases effect with
  | raise _ | loadSchedule _ _ | finishBlock _ _ _ _ => simp at h
  | configure hdec hw =>
    refine ⟨_, hdec, ?_⟩
    rcases ofKeyBits_eq_some.mp hw with ⟨rfl, -⟩ | ⟨rfl, -⟩ | ⟨rfl, -⟩ <;> simp

/-- A command that sets KSV is an EXPAND_KEY of the variant's length. -/
theorem CommandEffect.expandKey_of_ksv {v : Bits32} {s t : State} (effect : CommandEffect v s t) (hs : s.ksv = false)
    (ht : t.ksv = true) : ∃ p, s.var.params = some p ∧ decode v = .command (.expandKey (4 * p.nk)) := by
  cases effect with
  | raise _ | configure _ _ | finishBlock _ _ _ _ => simp [hs] at ht
  | loadSchedule hp hdec => exact ⟨_, hp, hdec⟩

/-- Settles O53: of the effects of a step only a command and a reset write VAR and KSV. -/
theorem configurationWriters : Obligations.ConfigurationWriters := by
  intro s t hstep
  cases step_effect hstep with
  | idle _ | read _ | storeDin _ | ignoredWrite _ _ => exact ⟨by simp, fun hs ht => by simp [hs] at ht⟩
  | reset hinbox => exact ⟨fun _ => .inl ⟨_, hinbox⟩, by simp⟩
  | command hinbox effect =>
    refine ⟨fun changed => .inr ?_, fun hs ht => ?_⟩
    · obtain ⟨arg, hdec, harg⟩ := effect.construct_of_changed changed
      exact ⟨_, _, arg, hinbox, hdec, harg⟩
    · obtain ⟨p, hp, hdec⟩ := effect.expandKey_of_ksv hs ht
      exact ⟨_, _, p, hinbox, hp, hdec⟩

/-- A command leaves DIN, it changes DOUT as a block command only, and KS as an EXPAND_KEY only. -/
theorem CommandEffect.buffers {v : Bits32} {s t : State} (effect : CommandEffect v s t) :
    t.din = s.din ∧
    (t.dout ≠ s.dout → s.var ≠ .none ∧ s.ksv = true ∧
      (decode v = .command (.encryptBlock 16) ∨ decode v = .command (.decryptBlock 16))) ∧
    (t.ks ≠ s.ks → ∃ p, s.var.params = some p ∧ decode v = .command (.expandKey (4 * p.nk))) := by
  cases effect with
  | raise _ | configure _ _ => simp
  | loadSchedule hp hdec => exact ⟨rfl, by simp, fun _ => ⟨_, hp, hdec⟩⟩
  | finishBlock r hp hksv hdec =>
    have configured : s.var ≠ .none := fun h => by simp [h, Variant.params] at hp
    exact ⟨rfl, fun _ => ⟨configured, hksv, hdec⟩, by simp⟩

/-- Settles O54: beside reset a buffer has one writer among the effects of a step. -/
theorem bufferWriters : Obligations.BufferWriters := by
  intro s t hstep
  cases step_effect hstep with
  | reset hinbox => exact .inl ⟨_, hinbox⟩
  | idle _ | read _ | ignoredWrite _ _ => simp
  | storeDin hinbox =>
    rw [← Nat.add_assoc] at hinbox
    exact .inr ⟨fun _ => ⟨_, _, _, Fin.isLt _, hinbox⟩, by simp, by simp⟩
  | command hinbox effect =>
    obtain ⟨hdin, hdout, hks⟩ := effect.buffers
    refine .inr ⟨fun changed => absurd hdin changed, fun changed => ⟨_, _, hinbox, hdout changed⟩, fun changed => ?_⟩
    obtain ⟨p, hp, hdec⟩ := hks changed
    exact ⟨_, _, p, hinbox, hp, hdec⟩

/-- A command leaves the parameters, the pending accesses, what the host has read, and BUSY. -/
theorem CommandEffect.frame {v : Bits32} {s t : State} (effect : CommandEffect v s t) :
    t.cfg = s.cfg ∧ t.inbox = s.inbox ∧ t.reads = s.reads ∧ t.busy = s.busy := by
  cases effect <;> simp

/-- Settles O55: each effect of a step takes the head of the pending accesses, and only a read appends a value. -/
theorem stepKeepsParameters : Obligations.StepKeepsParameters := by
  intro s t hstep
  cases step_effect hstep with
  | idle hinbox => simp [hinbox]
  | read hinbox | storeDin hinbox | ignoredWrite _ hinbox => simp [hinbox]
  | reset hinbox => exact ⟨rfl, by simp [hinbox], ⟨[], by simp⟩, .inr ⟨_, hinbox⟩⟩
  | command hinbox effect =>
    obtain ⟨hcfg, hrest, hreads, hbusy⟩ := effect.frame
    exact ⟨hcfg, by simp [hrest, hinbox], ⟨[], by simp [hreads]⟩, .inl hbusy⟩

/-- Settles O6: the word stands at CMD, where a write executes it. -/
theorem stepRunsDecodedCommand : Obligations.StepRunsDecodedCommand := by
  have runs {s : State} {v : Bits32} {rest : List HostAccess} {i : Instr}
      (hinbox : s.inbox = .write s.cfg.engineBase 4 v :: rest) (hbusy : s.busy = false) (hdec : decode v = .command i) :
      step s = exec i (s.withInbox rest) := by
    rw [step_of_admitted_write (off := 0) (by decide) (by decide) hinbox hbusy]
    simp [memWrite, execute, hdec]
  refine ⟨fun s v rest i hinbox hbusy hdec => runs hinbox hbusy hdec, fun s nbits w i hdec => ?fetched⟩
  case fetched =>
    exact runs (s := s.withFetchWord nbits w) rfl rfl (decode_of_decodeTableWord hdec)

end Sys2Proof.Machine
end

section
/-! SUPPORT. Host programs, their assembler and their operations, and with it the statements of 30_encoding.md section 4. -/

namespace Sys2Proof.Machine

/-! ## The assembler -/

/-- A command is refused exactly for an N that ARG cannot hold (30_encoding.md R81). -/
theorem expandCommand_eq_none (line : Nat) (i : Instr) : expandCommand line i = none ↔ 65535 < i.arg := by
  simp [expandCommand, Instr.wf]

theorem expandLine_ldin_eq_none (line : Nat) (bytes : List Byte) :
    expandLine line (.ldin bytes) = none ↔ bytes.length % 4 ≠ 0 ∨ 32 < bytes.length := by
  rw [expandLine, ite_eq_right_iff]
  simp only [reduceCtorEq, imp_false]
  omega

/-- Settles O57. -/
theorem assemblerRefusals : Obligations.AssemblerRefusals := fun line n bytes =>
  ⟨expandCommand_eq_none line (.construct n), expandCommand_eq_none line (.expandKey n),
    expandCommand_eq_none line (.encryptBlock n), expandCommand_eq_none line (.decryptBlock n),
    expandLine_ldin_eq_none line bytes⟩

/-- A command with an N that ARG can hold is the write of its word and a poll (30_encoding.md R81). -/
theorem expandCommand_of_fits (line : Nat) {i : Instr} (h : i.arg ≤ 65535) :
    expandCommand line i =
      some (.wr 0x000 (.const (BitVec.ofNat 32 (i.arg * 65536 + i.op.toNat))) :: expandPoll line) := by
  have word : encode i = BitVec.ofNat 32 (i.arg * 65536 + i.op.toNat) := by
    rw [← encode_toNat i h, BitVec.ofNat_toNat, BitVec.setWidth_eq]
  rw [expandCommand, if_pos ((wf_iff i).mpr h), word]

/-- The write of group `j` carries its four bytes, the first of them most significant (30_encoding.md R81). -/
theorem expandLdin_getElem? (bytes : List Byte) {j : Nat} (h : 4 * j + 3 < bytes.length) :
    (expandLdin bytes)[j]? = some (.wr (0x010 + 4 * j) (.const (wordVal
      ⟨bytes[4 * j], bytes[4 * j + 1], bytes[4 * j + 2], bytes[4 * j + 3]⟩))) := by
  have group : j < bytes.length / 4 := by omega
  simp only [expandLdin, List.getElem?_map, List.getElem?_range group, Option.map_some]
  rw [List.getD_eq_getElem _ _ (by omega), List.getD_eq_getElem _ _ (by omega), List.getD_eq_getElem _ _ (by omega),
    List.getD_eq_getElem _ _ h]

/-! ## One operation of the host -/

section Operations

variable {h : HostState} {off : Nat} {l : HostLabel} {t : HostVar} {x mask : Bits32} {e : State}

theorem hostProgramStep_label (hop : h.program[h.pos]? = some (.label l)) :
    hostProgramStep h = some (.next { h with pos := h.pos + 1 }) := by
  rw [hostProgramStep, hop]

theorem hostProgramStep_wr {V : HostValue} (hop : h.program[h.pos]? = some (.wr off V)) (hV : hostValue h.vars V = some x)
    (hstep : engineAccess (.write (h.engine.cfg.engineBase + off) 4 x) h.engine = .next e) :
    hostProgramStep h = some (.next { h with pos := h.pos + 1, engine := e }) := by
  rw [hostProgramStep, hop]
  simp only [hV, hstep, hostAdvance]

/-- A read that completes only takes the access and appends the register's value. -/
theorem eq_observe_of_step_read {s : State} {rest : List HostAccess}
    (hinbox : s.inbox = .read (s.cfg.engineBase + off) 4 :: rest) (hstep : step s = .next e) :
    e = (s.withInbox rest).observe (memRead s off) := by
  rw [step_of_read hinbox] at hstep
  obtain ⟨off', selected, -, -, -, rfl⟩ := hostRead_next hstep
  obtain rfl : off = off' := Nat.add_left_cancel (windowOffset_eq_some.mp selected).1
  rw [memRead_withInbox]

/-- `rd` stores the value of the register it reads (30_encoding.md R80). -/
theorem hostProgramStep_rd (hop : h.program[h.pos]? = some (.rd off t))
    (hstep : engineAccess (.read (h.engine.cfg.engineBase + off) 4) h.engine = .next e) :
    hostProgramStep h =
      some (.next { h with pos := h.pos + 1, vars := (t, memRead h.engine off) :: h.vars, engine := e }) := by
  have stored : e.reads.getLastD 0 = memRead h.engine off := by
    rw [eq_observe_of_step_read (off := off) rfl hstep, State.observe_reads, memRead_withInbox]
    simp
  rw [hostProgramStep, hop]
  simp only [hstep, hostAdvance, stored]

/-- `bnz` does not branch while the masked variable is 0 (30_encoding.md R80). -/
theorem hostProgramStep_bnz_zero (hop : h.program[h.pos]? = some (.bnz t mask l)) (ht : h.vars.lookup t = some x)
    (hx : x &&& mask = 0) : hostProgramStep h = some (.next { h with pos := h.pos + 1 }) := by
  rw [hostProgramStep, hop]
  simp only [hostLookup, ht, if_pos hx]

/-- The branch goes to the first position of the label. -/
theorem findIdx?_label {program : List HostOp} {k : Nat} (hk : program[k]? = some (.label l))
    (first : ∀ j, j < k → program[j]? ≠ some (.label l)) :
    program.findIdx? (fun o => decide (o = .label l)) = some k := by
  obtain ⟨inRange, at_k⟩ := List.getElem?_eq_some_iff.mp hk
  refine List.findIdx?_eq_some_iff_getElem.mpr ⟨inRange, by simpa using at_k, fun j hj => ?_⟩
  have not_at_j := first j hj
  rw [List.getElem?_eq_getElem (hj.trans inRange)] at not_at_j
  simpa using not_at_j

theorem hostProgramStep_bnz_taken {k : Nat} (hop : h.program[h.pos]? = some (.bnz t mask l)) (ht : h.vars.lookup t = some x)
    (hx : x &&& mask ≠ 0) (hk : h.program[k]? = some (.label l)) (first : ∀ j, j < k → h.program[j]? ≠ some (.label l)) :
    hostProgramStep h = some (.next { h with pos := k }) := by
  rw [hostProgramStep, hop]
  simp only [hostLookup, ht, if_neg hx, findIdx?_label hk first]

end Operations

/-- Settles O59: the expansions are computed, and each operation has its own lemma. -/
theorem hostNotationMeaning : Obligations.HostNotationMeaning := by
  refine ⟨fun line n x i t => ⟨rfl, fun hn => ?commands, rfl, rfl, rfl⟩, fun line bytes hmod hlen => ?ldin,
    fun h off x mask t l e => ⟨fun V hop hV hstep => ?wr, hostProgramStep_rd, hostProgramStep_label,
      hostProgramStep_bnz_zero, fun k => hostProgramStep_bnz_taken⟩⟩
  case commands =>
    exact ⟨expandCommand_of_fits line (i := .construct n) hn, expandCommand_of_fits line (i := .expandKey n) hn,
      expandCommand_of_fits line (i := .encryptBlock n) hn, expandCommand_of_fits line (i := .decryptBlock n) hn⟩
  case ldin =>
    refine ⟨expandLdin bytes, if_pos ⟨hmod, hlen⟩, by simp [expandLdin], fun j hj => ?_⟩
    exact ⟨_, expandLdin_getElem? bytes hj, wordVal_toNat _⟩
  case wr =>
    refine hostProgramStep_wr hop ?_ hstep
    rcases hV with rfl | ⟨u, rfl, hu⟩
    · rfl
    · exact hu

/-! ## Polling -/

theorem statusWord_and_busy {s : State} (h : s.busy = false) : statusWord s &&& 0x100 = 0 := by
  have mask : (0x100 : Bits32) = BitVec.twoPow 32 8 := rfl
  rw [mask, BitVec.and_twoPow, statusWord_busy, h]
  rfl

/-- Settles O58: the `rd` of a poll stores STATUS, whose bit 8 is BUSY = 0, so its `bnz` does not branch. -/
theorem pollRunsOnce : Obligations.PollRunsOnce := by
  intro h line hbusy hlabel hrd hbnz
  have reads : engineAccess (.read (h.engine.cfg.engineBase + 0x004) 4) h.engine =
      .next (h.engine.observe (memRead h.engine 0x004)) :=
    step_of_admitted_read (by decide) (by decide) rfl fun _ => rfl
  exact ⟨_, _, _, hostProgramStep_label hlabel, hostProgramStep_rd hrd reads,
    hostProgramStep_bnz_zero hbnz List.lookup_cons_self (statusWord_and_busy hbusy), rfl, rfl, rfl⟩

end Sys2Proof.Machine
end
